-- ==== Sys2Proof/Word.lean ====
section
/-! DEFINITION. The value types of the block: words, bytes, command words (spec/00_scope.md R8, R9).

`+`, `-`, `*`, `^^^`, `>>>` on these types are the operators of R9 and R120: modulo 2^64, unsigned,
nothing traps and no flag is set. `≤` is the unsigned comparison of R9. -/

namespace Sys2Proof

/-- A word: an unsigned integer of 64 bits, W64 of R8. -/
abbrev Word := BitVec 64

/-- A byte of the message or of a payload (R61). -/
abbrev Byte := BitVec 8

/-- A command word `cmd[263:0]` (R90). -/
abbrev Cmd := BitVec 264

/-- The payload `cmd[255:0]` (R91). -/
abbrev Payload := BitVec 256

end Sys2Proof
end

