-- ==== Sys2Proof/Machine/Mixing.lean ====
section
/-! DEFINITION. The datapath primitives and the permutation network (spec/40_datapath_primitives.md).
None of these functions reads or writes a register, none can fail, none sets a flag (R134). -/

namespace Sys2Proof.Machine

/-! ## Constants (R123) -/

/-- PRIME1. -/
def prime1 : Word := 0x9E3779B185EBCA87#64

/-- PRIME2. -/
def prime2 : Word := 0xC2B2AE3D27D4EB4F#64

/-- PRIME3. -/
def prime3 : Word := 0x165667B19E3779F9#64

/-- PRIME4. -/
def prime4 : Word := 0x85EBCA77C2B2AE63#64

/-- PRIME5. -/
def prime5 : Word := 0x27D4EB2F165667C5#64

/-! ## The permutation network (R121, R122, R131) -/

/-- `rotl64(x, k)` (R121), used with the constants 1, 7, 11, 12, 18, 23, 27 and 31 only (R131).
Outside 1..63 the spec leaves it undefined and unused (notes/assumptions/9.md). -/
def rotl64 (x : Word) (k : Nat) : Word := x <<< k ||| x >>> (64 - k)

/-- The xor-shift `xs(x, k) = x xor (x >> k)` (R122). -/
def xs (x : Word) (k : Nat) : Word := x ^^^ x >>> k

/-- `zext_64` of a narrow operand (R132). -/
def zext64 {w : Nat} (v : BitVec w) : Word := v.setWidth 64

/-! ## The mixing functions -/

/-- The lane round, `round(acc, w)` of R124 (Mathlib has a `round` of its own). -/
def laneRound (acc w : Word) : Word :=
  let t1 := acc + w * prime2
  let t2 := rotl64 t1 31
  t2 * prime1

/-- The first line of the lane merge (R125). -/
def merge4 (a b c d : Word) : Word := rotl64 a 1 + rotl64 b 7 + rotl64 c 12 + rotl64 d 18

/-- Fold one lane into the merged word (R126). -/
def mergeround (h x : Word) : Word :=
  let val := laneRound 0 x
  (h ^^^ val) * prime1 + prime4

/-- Absorb one 8-byte tail word (R127). -/
def tail8 (h w : Word) : Word :=
  let k := laneRound 0 w
  rotl64 (h ^^^ k) 27 * prime1 + prime4

/-- Absorb one 4-byte tail word (R128). -/
def tail4 (h : Word) (w : BitVec 32) : Word :=
  rotl64 (h ^^^ zext64 w * prime1) 23 * prime2 + prime3

/-- Absorb one tail byte (R129). -/
def tail1 (h : Word) (b : Byte) : Word := rotl64 (h ^^^ zext64 b * prime5) 11 * prime1

/-- The final scrambling (R130). -/
def avalanche (h : Word) : Word :=
  let a := xs h 33
  let b := a * prime2
  let c := xs b 29
  let d := c * prime3
  xs d 32

/-- Step 1 of finalization on the merge path (R171): `merge4`, then the lanes folded in the order
A, B, C, D. -/
def mergeLanes (a b c d : Word) : Word :=
  mergeround (mergeround (mergeround (mergeround (merge4 a b c d) a) b) c) d

end Sys2Proof.Machine
end

