-- ==== Sys2Proof/Syntax.lean ====
section
/-! DEFINITION. The command set (spec/30_encoding.md R95): one constructor per row of
spec/opcode_table.json, with the row's operands. -/

namespace Sys2Proof

/-- A command, decoded. Bits that a command ignores (R97) are no operand of it. -/
inductive Instr where
  /-- INIT: start a computation with `seed` (R150). -/
  | init (seed : Word)
  /-- GROUP: absorb one group of 32 bytes, as the four input words L0 to L3 (R160). -/
  | group (l0 l1 l2 l3 : Word)
  /-- FINAL: take the last `n` bytes of the message, `tail` in message order, and produce the
  hash (R170). -/
  | final (n : Fin 32) (tail : List Byte)
  deriving DecidableEq, Repr

end Sys2Proof
end

