-- ==== Sys2Proof/WellFormed.lean ====
section
/-! DEFINITION. Which terms of `Instr` are commands of the block. -/

namespace Sys2Proof

/-- R99: "the byte list has exactly n bytes and is omitted when n = 0". Every other operand of the
three commands is any value of its width (R94), so nothing else is checked. -/
def Instr.wellFormed : Instr → Bool
  | .init _ => true
  | .group _ _ _ _ => true
  | .final n tail => tail.length == n.val

end Sys2Proof
end

