-- ==== Sys2Proof/Decode.lean ====
section
/-! DEFINITION. Decoding and encoding of command words (spec/30_encoding.md R90 to R102).

`decode` is total on all 264-bit words and rejects a reserved header by name; `encode` writes the word
of a command from the format tables of R93. The listing form (R98) is the word as 33 bytes. -/

namespace Sys2Proof

/-! ## The fields of a command word -/

/-- The header byte `cmd[263:256]` (R91). -/
def headerOf (cmd : Cmd) : BitVec 8 := cmd.extractLsb' 256 8

/-- The opcode `op = cmd[263:261]` (R91). -/
def opOf (cmd : Cmd) : BitVec 3 := cmd.extractLsb' 261 3

/-- The tail length `n = cmd[260:256]` (R91). -/
def nOf (cmd : Cmd) : BitVec 5 := cmd.extractLsb' 256 5

/-- `PAY[i] = cmd[8i+7 : 8i]` (R92). -/
def payByte (cmd : Cmd) (i : Nat) : Byte := cmd.extractLsb' (8 * i) 8

/-- The payload bytes `PAY[0]` to `PAY[k-1]` in message order (R92). -/
def payBytes (cmd : Cmd) (k : Nat) : List Byte := (List.range k).map (payByte cmd)

/-- The slice `cmd[64j+63 : 64j]` (R94). -/
def payWord (cmd : Cmd) (j : Nat) : Word := cmd.extractLsb' (64 * j) 64

/-! ## Decoding -/

/-- Why a command word is no command: the two kinds of reserved header of R96. -/
inductive Reserved where
  /-- `op` is 000, 100, 101, 110 or 111. -/
  | opcode (op : BitVec 3)
  /-- `op` is INIT's and `n` is not 0. -/
  | initWithLength (n : BitVec 5)
  /-- `op` is GROUP's and `n` is not 0. -/
  | groupWithLength (n : BitVec 5)
  deriving DecidableEq, Repr

/-- Total decoding (R101): the opcode map of R95, the operands of R94, the reserved headers of
R96. -/
def decode (cmd : Cmd) : Except Reserved Instr :=
  if opOf cmd = 1#3 then
    if nOf cmd = 0#5 then .ok (.init (payWord cmd 0)) else .error (.initWithLength (nOf cmd))
  else if opOf cmd = 2#3 then
    if nOf cmd = 0#5 then
      .ok (.group (payWord cmd 0) (payWord cmd 1) (payWord cmd 2) (payWord cmd 3))
    else .error (.groupWithLength (nOf cmd))
  else if opOf cmd = 3#3 then
    .ok (.final (Fin.ofNat 32 (nOf cmd).toNat) (payBytes cmd (nOf cmd).toNat))
  else .error (.opcode (opOf cmd))

/-! ## Encoding -/

/-- Little-endian value of a byte list: `m[0] + 2^8·m[1] + …` (R62). -/
def leNat : List Byte → Nat
  | [] => 0
  | b :: bs => b.toNat + 256 * leNat bs

/-- A payload with the given bytes first and zeros after them (R92, R98: "Ignored bytes are written
as `00`"). -/
def packPayload (bytes : List Byte) : Payload := BitVec.ofNat 256 (leNat bytes)

/-- The command word of a header byte and a payload (R91). -/
def packCmd (header : BitVec 8) (pay : Payload) : Cmd := header ++ pay

/-- The header byte of an opcode and a tail length (R91). -/
def packHeader (op : BitVec 3) (n : BitVec 5) : BitVec 8 := op ++ n

/-- The payload of format G (R93): L3, L2, L1, L0 from the top. -/
def packWords (l0 l1 l2 l3 : Word) : Payload := l3 ++ l2 ++ l1 ++ l0

/-- The header byte of a command (R95). -/
def encodeHeader : Instr → BitVec 8
  | .init _ => packHeader 1#3 0#5
  | .group _ _ _ _ => packHeader 2#3 0#5
  | .final n _ => packHeader 3#3 (BitVec.ofNat 5 n.val)

/-- The payload of a command in the formats I, G and F of R93, ignored bits as zeros (R98). -/
def encodePayload : Instr → Payload
  | .init seed => packWords seed 0 0 0
  | .group l0 l1 l2 l3 => packWords l0 l1 l2 l3
  | .final _ tail => packPayload tail

/-- The command word of an instruction. -/
def encode (i : Instr) : Cmd := packCmd (encodeHeader i) (encodePayload i)

/-! ## The listing form -/

/-- R98: "first the header byte, then … the payload bytes in the order `PAY[0]`, …, `PAY[31]`". -/
def listing (cmd : Cmd) : List Byte := headerOf cmd :: payBytes cmd 32

/-- The command word that a listing of exactly 33 bytes writes (R98). -/
def ofListing : List Byte → Option Cmd
  | [] => none
  | h :: pay => if pay.length = 32 then some (packCmd h (packPayload pay)) else none

/-! ## Words numbered as spec/opcode_table.json numbers them (notes/assumptions/7.md) -/

/-- The table's rows number the header byte bits 7..0 (`match_applies_to` the header byte), so a
table word is the listing form read as a little-endian number: byte 0 is the header, byte `i + 1` is
`PAY[i]`. Every bit from `nbits` up is 0. -/
def tableListing (nbits w : Nat) : List Byte :=
  (List.range 33).map fun k => BitVec.ofNat 8 (w % 2 ^ nbits / 2 ^ (8 * k))

/-- The command word of a table word. -/
def cmdOfTableWord (nbits w : Nat) : Cmd := (ofListing (tableListing nbits w)).getD 0

/-- The instruction the decoder reads from a table word, none where it rejects it. -/
def decodeTableWord (nbits w : Nat) : Option Instr := (decode (cmdOfTableWord nbits w)).toOption

end Sys2Proof
end

