-- ==== Sys2Proof/Config.lean ====
section
/-! DEFINITION. What the spec leaves without a value: the data registers after a reset edge, and the
word accepted where the host changed it while it was presented.

The block has no configuration (spec/00_scope.md R6, R7): its constants are wired values and stand in
Machine/Mixing.lean; its only open parameters are latencies, which no rule reads (R250). -/

namespace Sys2Proof

/-- The registers whose value after reset is "unspecified" (spec/10_state.md R45). -/
inductive DataReg where
  | a | b | c | d | len | seed | hash
  deriving DecidableEq, Repr

/-- FREE VALUE (notes/assumptions/2.md): what data register `r` holds after the reset edge that
draws for the `k`-th time. R45 and R230 give it no value, so it has no body: no proof can see what
it is. -/
opaque Config.afterReset : DataReg → Nat → Word

/-- FREE VALUE (notes/assumptions/12.md): the word a core accepts where the host changed `cmd` while it
was presented, at the acceptance that draws for the `k`-th time: "an unspecified accepted value"
(spec/70_reset_and_hazards.md R248 H3), "a draw over all 264-bit words"
(spec/93_implementation_defined.md U13). -/
opaque Config.changedWord : Nat → Cmd

end Sys2Proof
end

