-- ==== Sys2Proof/Machine/State.lean ====
section
/-! DEFINITION. The state of one core (spec/10_state.md R30 to R46), its reset value, and the reasons
a step may stop. -/

namespace Sys2Proof.Machine

/-- The phase register PH (R36); its two-bit encoding is `Phase.bits`. -/
inductive Phase where
  /-- No computation in progress since reset. -/
  | idle
  /-- State initialised; groups may be absorbed; finalization may be requested. -/
  | absorb
  /-- Finalised; HASH valid. -/
  | done
  /-- A reserved or out-of-sequence command was presented. -/
  | fault
  deriving DecidableEq, Repr

/-- The fault-cause register FCODE (R38), one name for each of its four two-bit values; the encoding
is `FaultCode.bits`. -/
inductive FaultCode where
  /-- 00. -/
  | noFault
  /-- 01, RESERVED_CMD. -/
  | reservedCmd
  /-- 10, SEQUENCE. -/
  | sequence
  /-- 11, "never produced". -/
  | unused
  deriving DecidableEq, Repr

/-- One rising clock edge at the ports of R40: what the host drives on `rst`, `cmd_valid` and `cmd`,
and what the core shows on `cmd_ready`. `cmd_ready` is timing only (R39, R250), and the model lets it
be anything at any edge (notes/assumptions/4.md). -/
structure PortEdge where
  rst : Bool
  cmdValid : Bool
  cmdReady : Bool
  cmd : Cmd
  deriving DecidableEq, Repr

/-- What the host presents and the core has not accepted, for the duty of R40 and R248 (H3) to hold
`cmd` stable. -/
inductive Presented where
  /-- No word is waiting to be accepted. -/
  | nothing
  /-- `cmd` has been this word ever since `cmd_valid` rose. -/
  | steady (cmd : Cmd)
  /-- `cmd` changed since `cmd_valid` rose (U13). -/
  | changed
  deriving DecidableEq, Repr

/-- The nine registers of R30, and three fields of the model's own. -/
@[ext]
structure State where
  /-- Lane A (R31). -/
  laneA : Word
  /-- Lane B (R31). -/
  laneB : Word
  /-- Lane C (R31). -/
  laneC : Word
  /-- Lane D (R31). -/
  laneD : Word
  /-- LEN, the total byte count (R33). -/
  len : Word
  /-- SEED (R34). -/
  seed : Word
  /-- HASH (R35). -/
  hash : Word
  /-- PH (R36). -/
  ph : Phase
  /-- FCODE (R38). -/
  fcode : FaultCode
  /-- The model's own: the clock edges still to come at the ports, oldest first
  (notes/assumptions/3.md). -/
  port : List PortEdge
  /-- The model's own: the word waiting to be accepted, if there is one (notes/assumptions/12.md). -/
  presented : Presented
  /-- The model's own: how often free values have been drawn (notes/assumptions/2.md, 12.md). -/
  draws : Nat
  deriving DecidableEq, Repr

/-- Why the machine stops with a fault. There is no such reason: the arithmetic cannot fail (R134,
R200), and the block's two command faults are entries into the FAULT phase, which are next states
(R204; notes/assumptions/11.md). -/
inductive Fault where
  deriving DecidableEq, Repr

/-- Why a command has no meaning in the model. -/
inductive Refusal where
  /-- Raised by an arm of `exec` whose instruction has no meaning yet; none is left. Safe. -/
  | notModelled (mnemonic : String)
  deriving DecidableEq, Repr

/-- The machine right after reset (R45): PH = IDLE and FCODE = 00 are the spec's; the zeros of the
seven data registers are a DESIGN CHOICE (notes/assumptions/1.md), and nothing is presented or pending
at the ports (notes/assumptions/6.md, 12.md). -/
def State.reset : State where
  laneA := 0
  laneB := 0
  laneC := 0
  laneD := 0
  len := 0
  seed := 0
  hash := 0
  ph := .idle
  fcode := .noFault
  port := []
  presented := .nothing
  draws := 0

end Sys2Proof.Machine
end

