-- ==== Sys2Proof/Machine/Ops.lean ====
section
/-! DEFINITION. The named operations over the registers: the writes, the entry into FAULT, the reset
that is the only return from it, and the phase checks that every command makes.

The block has no memory (spec/20_memory.md R60), so there are no operations over one. -/

namespace Sys2Proof.Machine

/-- What a meaning answers. -/
abbrev Result := Host.Outcome State Fault Refusal

/-! ## Register access (spec/00_scope.md R10) -/

/-- The alias `x[0]` = A, `x[1]` = B, `x[2]` = C, `x[3]` = D of the lanes (R10, R31). -/
def State.x (s : State) : Fin 4 → Word
  | 0 => s.laneA
  | 1 => s.laneB
  | 2 => s.laneC
  | 3 => s.laneD

/-- Write the four lanes together. -/
def setLanes (a b c d : Word) (s : State) : State :=
  { s with laneA := a, laneB := b, laneC := c, laneD := d }

/-- `LEN <- v`. -/
def setLen (v : Word) (s : State) : State := { s with len := v }

/-- `SEED <- v`. -/
def setSeed (v : Word) (s : State) : State := { s with seed := v }

/-- `HASH <- v`. -/
def setHash (v : Word) (s : State) : State := { s with hash := v }

/-- `PH <- p` (R12). -/
def setPhase (p : Phase) (s : State) : State := { s with ph := p }

/-- `FCODE <- code`. -/
def setFcode (code : FaultCode) (s : State) : State := { s with fcode := code }

/-- What is still to come at the ports. -/
def setPort (edges : List PortEdge) (s : State) : State := { s with port := edges }

/-- What is presented and not accepted. -/
def setPresented (p : Presented) (s : State) : State := { s with presented := p }

/-- One more free value has been drawn. -/
def countDraw (s : State) : State := { s with draws := s.draws + 1 }

/-! ## Faults and reset (spec/60_exceptions.md, spec/70_reset_and_hazards.md) -/

/-- Entry into FAULT (R204): `PH <- FAULT`, `FCODE <- code`, and nothing else is written, nothing is
saved, control goes nowhere. -/
def enterFault (code : FaultCode) (s : State) : State := setPhase .fault (setFcode code s)

/-- A reset edge (R230), the only way out of FAULT (R206): PH = IDLE, FCODE = 00, and every data
register takes a free value, because R45 leaves it unspecified (notes/assumptions/2.md). -/
def resetRegisters (s : State) : State where
  laneA := Config.afterReset .a s.draws
  laneB := Config.afterReset .b s.draws
  laneC := Config.afterReset .c s.draws
  laneD := Config.afterReset .d s.draws
  len := Config.afterReset .len s.draws
  seed := Config.afterReset .seed s.draws
  hash := Config.afterReset .hash s.draws
  ph := .idle
  fcode := .noFault
  port := s.port
  presented := s.presented
  draws := s.draws + 1

/-! ## The phase checks of the commands (spec/10_state.md R37) -/

/-- A command that every phase but FAULT executes (INIT, R150); in FAULT it is dropped (R206). -/
def unlessFault (effect : State → State) (s : State) : Result :=
  match s.ph with
  | .idle | .absorb | .done => .next (effect s)
  | .fault => .next s

/-- A command that only ABSORB executes (GROUP and FINAL, R160 and R170): in IDLE and DONE it raises
SEQUENCE (R201), in FAULT it is dropped (R206). -/
def whenAbsorbing (effect : State → State) (s : State) : Result :=
  match s.ph with
  | .absorb => .next (effect s)
  | .idle | .done => .next (enterFault .sequence s)
  | .fault => .next s

end Sys2Proof.Machine
end

