-- ==== Sys2Proof/Machine/Operands.lean ====
section
/-! DEFINITION. The operand forms a command reads from its payload at execution (spec/00_scope.md R11,
spec/20_memory.md R62, R64). The whole words of INIT and GROUP are slices of the command word and are
cut out by the decoder (R94). -/

namespace Sys2Proof.Machine

/-- `PayRead(off, w)` of R11: the little-endian unsigned integer of `8w` bits made of the bytes at
`off` to `off + w - 1`. The commands use it with `w` in {1, 4, 8} and inside the bytes they have
(R66). -/
def payRead (pay : List Byte) (off w : Nat) : BitVec (8 * w) :=
  BitVec.ofNat (8 * w) (leNat ((pay.drop off).take w))

end Sys2Proof.Machine
end

