-- ==== Sys2Proof/Machine/Final.lean ====
section
/-! DEFINITION. The meaning of FINAL (spec/43_final.md R170 to R176).

The three loops of R170 are written as the pseudocode has them, with the tail position `p` and the
working word `h`; `fuel` bounds their rounds, and `n` rounds are always enough, since each advances
`p`. The counts of R176 are then a consequence. -/

namespace Sys2Proof.Machine

/-- `while n − p ≥ 8 do h = tail8(h, PayRead(p, 8)); p = p + 8`. -/
def absorb8 (pay : List Byte) (n : Nat) : (fuel p : Nat) → Word → Nat × Word
  | 0, p, h => (p, h)
  | fuel + 1, p, h =>
    if 8 ≤ n - p then absorb8 pay n fuel (p + 8) (tail8 h (payRead pay p 8)) else (p, h)

/-- `if n − p ≥ 4 then h = tail4(h, PayRead(p, 4)); p = p + 4`. -/
def absorb4 (pay : List Byte) (n p : Nat) (h : Word) : Nat × Word :=
  if 4 ≤ n - p then (p + 4, tail4 h (payRead pay p 4)) else (p, h)

/-- `while p < n do h = tail1(h, PayRead(p, 1)); p = p + 1`. -/
def absorb1 (pay : List Byte) (n : Nat) : (fuel p : Nat) → Word → Word
  | 0, _, h => h
  | fuel + 1, p, h =>
    if p < n then absorb1 pay n fuel (p + 1) (tail1 h (payRead pay p 1)) else h

/-- Step 3 of finalization, the tail (R173). -/
def absorbTail (pay : List Byte) (n : Nat) (h : Word) : Word :=
  let after8 := absorb8 pay n n 0 h
  let after4 := absorb4 pay n after8.1 after8.2
  absorb1 pay n n after4.1 after4.2

/-- Step 1 of finalization (R171): the merge path where the counter, tail included, is at least 32,
and `SEED + PRIME5` below. -/
def finalStart (len1 : Word) (s : State) : Word :=
  if 32#64 ≤ len1 then mergeLanes s.laneA s.laneB s.laneC s.laneD else s.seed + prime5

/-- Steps 1 to 4 (R170). -/
def finalHash (n : Nat) (pay : List Byte) (len1 : Word) (s : State) : Word :=
  avalanche (absorbTail pay n (finalStart len1 s + len1))

/-- The register writes of FINAL (R170, R175): HASH, LEN with the tail added, and PH. -/
def finalEffect (n : Nat) (pay : List Byte) (s : State) : State :=
  let len1 := s.len + BitVec.ofNat 64 n
  setPhase .done (setLen len1 (setHash (finalHash n pay len1 s) s))

/-- FINAL: consume the last `n` bytes and produce the hash in ABSORB; SEQUENCE in IDLE and DONE
(R170). A term whose byte list is not `n` long is no command and never comes from the decoder
(notes/assumptions/10.md). -/
def execFinal (n : Fin 32) (tail : List Byte) (s : State) : Result :=
  whenAbsorbing (finalEffect n.val tail) s

end Sys2Proof.Machine
end

