-- ==== Sys2Proof/Machine/Group.lean ====
section
/-! DEFINITION. The meaning of GROUP (spec/42_group.md R160). -/

namespace Sys2Proof.Machine

/-- The register writes of GROUP (R160): each lane from its own old value and its own input word,
and LEN grows by 32. SEED, HASH and PH keep their values. -/
def groupEffect (l0 l1 l2 l3 : Word) (s : State) : State :=
  setLen (s.len + 32) (setLanes (laneRound s.laneA l0) (laneRound s.laneB l1) (laneRound s.laneC l2)
    (laneRound s.laneD l3) s)

/-- GROUP: absorb one group of 32 bytes in ABSORB; SEQUENCE in IDLE and DONE (R160). -/
def execGroup (l0 l1 l2 l3 : Word) (s : State) : Result :=
  whenAbsorbing (groupEffect l0 l1 l2 l3) s

end Sys2Proof.Machine
end

