-- ==== Sys2Proof/Machine/Init.lean ====
section
/-! DEFINITION. The meaning of INIT (spec/41_init.md R150). -/

namespace Sys2Proof.Machine

/-- The register writes of INIT (R150). HASH and FCODE are not written. -/
def initEffect (seed : Word) (s : State) : State :=
  setPhase .absorb (setLen 0 (setSeed seed
    (setLanes (seed + prime1 + prime2) (seed + prime2) seed (seed - prime1) s)))

/-- INIT: start a computation, from every phase but FAULT (R150, R152). -/
def execInit (seed : Word) (s : State) : Result := unlessFault (initEffect seed) s

end Sys2Proof.Machine
end

