-- ==== Sys2Proof/Machine/Dispatch.lean ====
section
/-! DEFINITION. One arm per command (spec/30_encoding.md R95). -/

namespace Sys2Proof.Machine

def exec (i : Instr) (s : State) : Host.Outcome State Fault Refusal :=
  match i with
  | .init seed => Sys2Proof.Machine.execInit seed s
  | .group l0 l1 l2 l3 => Sys2Proof.Machine.execGroup l0 l1 l2 l3 s
  | .final n tail => Sys2Proof.Machine.execFinal n tail s

end Sys2Proof.Machine
end

