-- ==== Sys2Proof/Machine/Clock.lean ====
section
/-! DEFINITION. What one rising clock edge does: the order of the checks of spec/60_exceptions.md
R205. -/

namespace Sys2Proof.Machine

/-- A command is accepted at an edge where `cmd_valid` and `cmd_ready` are 1 and `rst` is 0 (R40). -/
def PortEdge.accepts (e : PortEdge) : Bool := !e.rst && e.cmdValid && e.cmdReady

/-- An edge at which the host's word is accepted. -/
def acceptEdge (cmd : Cmd) : PortEdge :=
  { rst := false, cmdValid := true, cmdReady := true, cmd := cmd }

/-- An edge with `rst` = 1 and nothing presented. -/
def resetEdge : PortEdge := { rst := true, cmdValid := false, cmdReady := false, cmd := 0 }

/-- An edge at which nothing is presented (R97: "An idle port … is the only no-op"). -/
def idleEdge : PortEdge := { rst := false, cmdValid := false, cmdReady := true, cmd := 0 }

/-- What stands presented at an edge, given what stood presented before it: a word is steady as long as
`cmd` keeps it while `cmd_valid` is 1 (R40, R248 H3). An edge with `cmd_valid` = 0 ends the
presentation; an edge with `rst` = 1 does not (notes/assumptions/16.md). -/
def Presented.hold (p : Presented) (e : PortEdge) : Presented :=
  if e.cmdValid then
    match p with
    | .nothing => .steady e.cmd
    | .steady w => if w = e.cmd then .steady w else .changed
    | .changed => .changed
  else .nothing

/-- The word a core accepts at edge `e`: the value of `cmd` there (R72), but a free value where the
host changed `cmd` while it was presented (R248 H3, U13; notes/assumptions/12.md). -/
def acceptedWord (e : PortEdge) (s : State) : Cmd :=
  match s.presented.hold e with
  | .changed => Config.changedWord s.draws
  | .nothing | .steady _ => e.cmd

/-- The presentation ends when its word is accepted; a free value drawn for it is counted. -/
def endPresentation (e : PortEdge) (s : State) : State :=
  match s.presented.hold e with
  | .changed => countDraw (setPresented .nothing s)
  | .nothing | .steady _ => setPresented .nothing s

/-- An accepted command word: checks 3 to 6 of R205. In FAULT it is dropped, whatever it is (R206); a
reserved header raises RESERVED_CMD (R201); check 5 and the execution are the command's own. -/
def acceptCommand (cmd : Cmd) (s : State) : Result :=
  match s.ph with
  | .fault => .next s
  | .idle | .absorb | .done =>
    match decode cmd with
    | .error _ => .next (enterFault .reservedCmd s)
    | .ok i => exec i s

/-- One rising clock edge (R205): reset first, then nothing accepted, then the accepted command. -/
def clockEdge (e : PortEdge) (s : State) : Result :=
  if e.rst then .next (resetRegisters (setPresented (s.presented.hold e) s))
  else if e.accepts then acceptCommand (acceptedWord e s) (endPresentation e s)
  else .next (setPresented (s.presented.hold e) s)

/-- The next edge at the ports. Where no edge is pending the host presents nothing, and the block
holds its registers indefinitely (R216; notes/assumptions/3.md). -/
def advance (s : State) : Result :=
  match s.port with
  | [] => clockEdge idleEdge s
  | e :: rest => clockEdge e (setPort rest s)

/-- Present `cmd` afresh before everything still pending, accepted at the very next edge. -/
def presentFirst (cmd : Cmd) (s : State) : State :=
  setPresented .nothing (setPort (acceptEdge cmd :: s.port) s)

end Sys2Proof.Machine
end

