-- ==== Sys2Proof/Machine/Step.lean ====
section
/-! DEFINITION. The step: one rising clock edge of the command port. -/

namespace Sys2Proof.Machine

/-- One step of the machine. -/
def step (s : State) : Host.Outcome State Fault Refusal := advance s

/-- `s` with the command of a table word presented at the port, so that the very next step accepts
it. The block has no program store (spec/10_state.md R36): the host's port is where the next command
is read from (notes/assumptions/6.md). -/
def State.withFetchWord (s : State) (nbits w : Nat) : State :=
  presentFirst (cmdOfTableWord nbits w) s

end Sys2Proof.Machine
end

