-- ==== Sys2Proof/Machine/Driver.lean ====
section
/-! DEFINITION. The host's side of the port, as far as it decides command sequences: the assembler
lines and pseudo-instructions (spec/30_encoding.md R99, R100), single-shot hashing (spec/20_memory.md
R63, spec/70_reset_and_hazards.md R236) and streaming with carry-over (R237).

None of this is part of the block; it is the environment its runs live in (R5, R246;
notes/assumptions/14.md). -/

namespace Sys2Proof.Machine

/-! ## From message to commands -/

/-- The GROUP command of the 32 bytes at the front of `bytes`: `Lj = PayRead(8j, 8)` (R64). -/
def groupOf (bytes : List Byte) : Instr :=
  .group (payRead bytes 0 8) (payRead bytes 8 8) (payRead bytes 16 8) (payRead bytes 24 8)

/-- One GROUP for each complete group of 32 bytes, in message order (R63). -/
def groupsOf (bytes : List Byte) : List Instr :=
  (List.range (bytes.length / 32)).map fun j => groupOf (bytes.drop (32 * j))

/-- What is left after the complete groups: 0 to 31 bytes. -/
def leftover (bytes : List Byte) : List Byte := bytes.drop (32 * (bytes.length / 32))

/-- The FINAL command of a tail of at most 31 bytes. -/
def finalOf (tail : List Byte) : Instr := .final (Fin.ofNat 32 tail.length) tail

/-- The pseudo-instruction `HASH seed, m` (R100): the sequence of R236, "in this order and with
nothing else in between". -/
def hashCommands (seed : Word) (m : List Byte) : List Instr :=
  .init seed :: groupsOf m ++ [finalOf (leftover m)]

/-- The UTF-8 bytes of a text (R100, R245): no byte-order mark, no terminator. -/
def utf8Bytes (text : String) : List Byte :=
  (text.toList.flatMap String.utf8EncodeChar).map UInt8.toBitVec

/-- The pseudo-instruction `HASHSTR seed, "text"` (R100): `HASH seed, utf8(text)`. -/
def hashStrCommands (seed : Word) (text : String) : List Instr := hashCommands seed (utf8Bytes text)

/-! ## Streaming -/

/-- The streaming host after INIT (R237), with the bytes `carry` left from earlier chunks: it puts
them in front of the next chunk, sends the complete groups, and keeps the rest; at end-of-data it
sends FINAL with what it carries. -/
def streamFrom (carry : List Byte) : List (List Byte) → List Instr
  | [] => [finalOf carry]
  | chunk :: rest => groupsOf (carry ++ chunk) ++ streamFrom (leftover (carry ++ chunk)) rest

/-- `hash_stream` of R100 and R237: the commands for a source read in the given chunks. -/
def streamCommands (seed : Word) (chunks : List (List Byte)) : List Instr :=
  .init seed :: streamFrom [] chunks

/-- A stream that is cancelled, or whose source fails, after the given chunks (R210, R241): the
groups in hand are finished and no FINAL is sent. -/
def cancelledFrom (carry : List Byte) : List (List Byte) → List Instr
  | [] => []
  | chunk :: rest => groupsOf (carry ++ chunk) ++ cancelledFrom (leftover (carry ++ chunk)) rest

/-- The commands of a cancelled or failed stream. -/
def cancelledCommands (seed : Word) (chunks : List (List Byte)) : List Instr :=
  .init seed :: cancelledFrom [] chunks

/-! ## Assembler lines -/

/-- One line of the assembler (R99, R100), operands parsed. -/
inductive AsmLine where
  /-- `INIT <seed>`; "INIT" alone means INIT 0. -/
  | init (seed : Option Word)
  /-- `GROUP <32 bytes>`, in message order. -/
  | group (bytes : List Byte)
  /-- `FINAL <n> [, <n bytes>]`. -/
  | final (n : Nat) (bytes : List Byte)
  /-- `HASH <seed>, <bytes>`. -/
  | hash (seed : Word) (bytes : List Byte)
  /-- `HASHSTR <seed>, "<text>"`. -/
  | hashStr (seed : Word) (text : String)
  deriving DecidableEq, Repr

/-- The commands a line stands for; none where its byte list has the wrong length (R99). -/
def assemble : AsmLine → Option (List Instr)
  | .init seed => some [.init (seed.getD 0)]
  | .group bytes => if bytes.length = 32 then some [groupOf bytes] else none
  | .final n bytes =>
    if h : n < 32 then if bytes.length = n then some [.final ⟨n, h⟩ bytes] else none else none
  | .hash seed bytes => some (hashCommands seed bytes)
  | .hashStr seed text => some (hashStrCommands seed text)

/-! ## At the port -/

/-- The clock edges at which the words of `is` are accepted, one after the other. -/
def acceptAll (is : List Instr) : List PortEdge := is.map fun i => acceptEdge (encode i)

/-- `s` with exactly the commands `is` to come at its port, the first of them presented afresh. -/
def withCommands (is : List Instr) (s : State) : State :=
  setPresented .nothing (setPort (acceptAll is) s)

end Sys2Proof.Machine
end

