-- ==== Sys2Proof/Machine/Flags.lean ====
section
/-! DEFINITION. The status outputs. There are no condition codes (spec/10_state.md R39): the only
status bits are functions of PH, and FCODE and HASH are read at ports of their own (R40). -/

namespace Sys2Proof.Machine

/-- The encoding of PH (R36). -/
def Phase.bits : Phase → BitVec 2
  | .idle => 0#2
  | .absorb => 1#2
  | .done => 2#2
  | .fault => 3#2

/-- The encoding of FCODE (R38). -/
def FaultCode.bits : FaultCode → BitVec 2
  | .noFault => 0#2
  | .reservedCmd => 1#2
  | .sequence => 2#2
  | .unused => 3#2

/-- Output `phase` (R36, R40). -/
def phasePort (s : State) : BitVec 2 := s.ph.bits

/-- Output `fcode` (R40). -/
def fcodePort (s : State) : BitVec 2 := s.fcode.bits

/-- Output `hash_valid` = (PH = DONE) (R39). -/
def hashValid (s : State) : Bool := s.ph == .done

/-- Output `fault` = (PH = FAULT) (R39). -/
def faultPort (s : State) : Bool := s.ph == .fault

/-- Output `hash`: HASH while `hash_valid` = 1, and absent otherwise, since the port then carries a
value that a model must not give a meaning to (R35; notes/assumptions/8.md). -/
def hashPort (s : State) : Option Word := if hashValid s then some s.hash else none

/-- All outputs of R40 but `cmd_ready`, which is timing only. -/
structure Outputs where
  hash : Option Word
  hashValid : Bool
  fault : Bool
  fcode : BitVec 2
  phase : BitVec 2
  deriving DecidableEq, Repr

/-- What the host can see of a core (R40). -/
def outputs (s : State) : Outputs where
  hash := hashPort s
  hashValid := hashValid s
  fault := faultPort s
  fcode := fcodePort s
  phase := phasePort s

end Sys2Proof.Machine
end

