-- ==== Sys2Proof/Safety.lean ====
section
/-! DEFINITION. The terms claims use: the invariant, how a run ends (spec/70_reset_and_hazards.md
R251), the protocol of the port (R40, R248, R250), and the function of seed and message that a legal
run computes (spec/43_final.md R181). -/

namespace Sys2Proof.Safety

open Sys2Proof.Machine

/-! ## Invariant -/

/-- What the registers of a running core satisfy (R33, R38): FCODE is set exactly in FAULT and never
holds 11, and while a computation is open LEN is a whole number of groups. -/
structure Inv (s : State) : Prop where
  code_iff_fault : s.fcode ≠ .noFault ↔ s.ph = .fault
  code_used : s.fcode ≠ .unused
  len_whole_groups : s.ph = .absorb → s.len.toNat % 32 = 0

/-! ## Runs

A run is the machine's own, through the host's interface. -/

/-- `k` steps of the machine. -/
def run (k : Nat) (s : State) : Host.Outcome State Fault Refusal := Host.Core.run Sys2Proof.core k s

/-- The machine driven with exactly the given clock edges, until they are used up. -/
def runEdges (edges : List PortEdge) (s : State) : Host.Outcome State Fault Refusal :=
  run edges.length (setPort edges s)

/-- The machine given exactly the given commands, accepted one after the other, the first of them
presented afresh. -/
def runCommands (is : List Instr) (s : State) : Host.Outcome State Fault Refusal :=
  runEdges (acceptAll is) (setPresented .nothing s)

/-- What the `hash` port shows after the pseudo-instruction HASH, if anything. -/
def hashAfter (seed : Word) (m : List Byte) (s : State) : Option Word :=
  match runCommands (hashCommands seed m) s with
  | .next t => hashPort t
  | _ => none

/-- Two states that agree on every register a command of the current phase can read or a port can
show, and on the model's own fields: the others are "unspecified" (R45) or "have no further meaning"
(R44). -/
structure SameVisible (s t : State) : Prop where
  ph : s.ph = t.ph
  fcode : s.fcode = t.fcode
  port : s.port = t.port
  presented : s.presented = t.presented
  draws : s.draws = t.draws
  absorb : s.ph = .absorb → s.laneA = t.laneA ∧ s.laneB = t.laneB ∧ s.laneC = t.laneC ∧
    s.laneD = t.laneD ∧ s.len = t.len ∧ s.seed = t.seed
  done : s.ph = .done → s.hash = t.hash

/-! ## How a run ends (R251) -/

/-- It "has ended well when PH = DONE". -/
def endedWell (s : State) : Bool := hashValid s

/-- It "has ended badly when PH = FAULT". -/
def endedBadly (s : State) : Bool := faultPort s

/-! ## The port (R40, R248 H3, R250) -/

/-- H3, the host's duty: `cmd` does not change from one edge to the next while `cmd_valid` is 1 at both
and the first accepted nothing. A word withdrawn by an edge with `cmd_valid` = 0 may be replaced by
another, which is the model's reading (notes/assumptions/16.md). -/
def commandStable : List PortEdge → Bool
  | e :: f :: rest =>
    (!e.cmdValid || e.accepts || !f.cmdValid || f.cmd == e.cmd) && commandStable (f :: rest)
  | _ => true

/-- A host that also waits: a word presented and not accepted is presented again, unchanged, at the
next edge. -/
def commandHeld : List PortEdge → Bool
  | e :: f :: rest =>
    (!e.cmdValid || e.accepts || (f.cmdValid && f.cmd == e.cmd)) && commandHeld (f :: rest)
  | _ => true

/-- R250, the core's promise, which the step does not enforce (notes/assumptions/4.md): `cmd_ready` is
0 only in a run of edges that starts right after an accepted command or a reset. `busy` says whether
such a run may go on. -/
def readyDiscipline : Bool → List PortEdge → Bool
  | _, [] => true
  | busy, e :: rest =>
    (e.cmdReady || busy) && readyDiscipline (e.rst || e.accepts || (busy && !e.cmdReady)) rest

/-- An edge at which the core is busy and the host waits. -/
def busyEdge : PortEdge := { rst := false, cmdValid := false, cmdReady := false, cmd := 0 }

/-- Words accepted back to back, each followed by the `LAT − 1` busy edges of its latency (R250). -/
def paced : List (Cmd × Nat) → List PortEdge
  | [] => []
  | (cmd, wait) :: rest => acceptEdge cmd :: (List.replicate wait busyEdge ++ paced rest)

/-- What an edge comes to where every word is held stable (R205): a reset, an accepted word, or nothing
at all. -/
def event (e : PortEdge) : Option PortEdge :=
  if e.rst then some resetEdge else if e.accepts then some (acceptEdge e.cmd) else none

/-- The edges at which something happens, with nothing presented at a reset. -/
def eventful (edges : List PortEdge) : List PortEdge := edges.filterMap event

/-- The words the host offers, in order: each word once, at the edge where it is first presented
(`waiting` says whether the word presented now was presented before and not accepted). -/
def offered : Bool → List PortEdge → List Cmd
  | _, [] => []
  | waiting, e :: rest =>
    (if e.cmdValid && !waiting then [e.cmd] else []) ++ offered (e.cmdValid && !e.cmdReady) rest

/-- The words accepted, in order. -/
def accepted (edges : List PortEdge) : List Cmd := (edges.filter PortEdge.accepts).map PortEdge.cmd

/-! ## The function computed (R181) -/

/-- The lanes after a list of GROUP commands' words (R162), from the INIT values of the seed (R150). -/
structure Lanes where
  a : Word
  b : Word
  c : Word
  d : Word
  deriving DecidableEq, Repr

/-- R150: the lanes INIT makes of a seed. -/
def Lanes.start (seed : Word) : Lanes where
  a := seed + 0x60EA27EEADC0B5D6#64
  b := seed + prime2
  c := seed
  d := seed + 0x61C8864E7A143579#64

/-- R160 on the 32 bytes of a group. -/
def Lanes.absorb (l : Lanes) (g : List Byte) : Lanes where
  a := laneRound l.a (BitVec.ofNat 64 (leNat (g.take 8)))
  b := laneRound l.b (BitVec.ofNat 64 (leNat ((g.drop 8).take 8)))
  c := laneRound l.c (BitVec.ofNat 64 (leNat ((g.drop 16).take 8)))
  d := laneRound l.d (BitVec.ofNat 64 (leNat ((g.drop 24).take 8)))

/-- The lanes after the first `g` groups of a message. -/
def Lanes.after (seed : Word) (m : List Byte) : Nat → Lanes
  | 0 => .start seed
  | g + 1 => (Lanes.after seed m g).absorb ((m.drop (32 * g)).take 32)

/-- Walk through the bytes left by structural recursion (R173): eight at a time while there are eight,
then four if there are four, then one at a time. -/
def walkTail {α : Type} (f8 f4 f1 : α → List Byte → α) : α → List Byte → α
  | h, b0 :: b1 :: b2 :: b3 :: b4 :: b5 :: b6 :: b7 :: rest =>
    walkTail f8 f4 f1 (f8 h [b0, b1, b2, b3, b4, b5, b6, b7]) rest
  | h, b0 :: b1 :: b2 :: b3 :: rest => walkTail f8 f4 f1 (f4 h [b0, b1, b2, b3]) rest
  | h, b0 :: rest => walkTail f8 f4 f1 (f1 h [b0]) rest
  | h, [] => h

/-- The tail steps of R173, each on its bytes read little-endian (R62). -/
def mixTail (h : Word) (bytes : List Byte) : Word :=
  walkTail (fun h bs => tail8 h (BitVec.ofNat 64 (leNat bs)))
    (fun h bs => tail4 h (BitVec.ofNat 32 (leNat bs)))
    (fun h bs => tail1 h (BitVec.ofNat 8 (leNat bs))) h bytes

/-- `XXH64(s, m)` of R181, from D0's description of the algorithm: the merge path for messages of at
least 32 bytes, `seed + PRIME5` for shorter ones (R171), the length (R172), the tail (R173), the
avalanche (R174). -/
def xxh64 (seed : Word) (m : List Byte) : Word :=
  let l := Lanes.after seed m (m.length / 32)
  let h := if 32 ≤ m.length then mergeLanes l.a l.b l.c l.d else seed + prime5
  avalanche (mixTail (h + BitVec.ofNat 64 m.length) (m.drop (32 * (m.length / 32))))

end Sys2Proof.Safety
end

