-- ==== Sys2Proof/Certificates/Slice0/Obligations.lean ====
section
/-! DEFINITION. The statements for the provers. Each docstring names the rule of spec/ it formalises,
or says what it is derived from. -/

open Sys2Proof Sys2Proof.Machine Sys2Proof.Safety

namespace Sys2Proof.Claims

/-! ## Helpers of the statements, written from the spec and not from the model's definitions -/

/-- How many low payload bits a command reads: the rest is ignored (R93). -/
def operandBits : Instr → Nat
  | .init _ => 64
  | .group _ _ _ _ => 256
  | .final n _ => 8 * n.val

/-- How many payload bytes the command with header `h` reads (R61): INIT 8, GROUP 32, FINAL `n`, a
reserved word none. -/
def bytesRead (h : BitVec 8) : Nat :=
  if h = 0x20#8 then 8 else if h = 0x40#8 then 32 else if h &&& 0xE0#8 = 0x60#8 then h.toNat - 0x60
  else 0

/-- A header that selects no row of the opcode map, by the ranges of R96. -/
def reservedHeader (h : Nat) : Bool :=
  h ≤ 0x1F || (0x80 ≤ h && h ≤ 0xFF) || (0x21 ≤ h && h ≤ 0x3F) || (0x41 ≤ h && h ≤ 0x5F)

/-- The decimal values of the constants, as R123 prints them. -/
def p1 : Nat := 11400714785074694791
def p2 : Nat := 14029467366897019727
def p3 : Nat := 1609587929392839161
def p4 : Nat := 9650029242287828579
def p5 : Nat := 2870177450012600261

/-- Rotation of a 64-bit number in integer arithmetic (R121). -/
def rotNat (x k : Nat) : Nat := x * 2 ^ k % 2 ^ 64 + x / 2 ^ (64 - k)

/-- `round` in integer arithmetic (R120, R124). -/
def roundNat (acc w : Nat) : Nat := rotNat ((acc + w * p2) % 2 ^ 64) 31 * p1 % 2 ^ 64

/-- The word of bytes `off` to `off + w - 1`, little-endian, as the sum of R62. -/
def sumLE (m : List Byte) (off w : Nat) : Nat :=
  ∑ i ∈ Finset.range w, 2 ^ (8 * i) * (m.getD (off + i) 0).toNat

/-- Step 3 of finalization by the counts and offsets of R176 and R94: `q8` eight-byte words, `q4`
four-byte words at offset `8·q8`, `q1` single bytes at the offsets that follow. -/
def tailByCounts (n : Nat) (m : List Byte) (h : Word) : Word :=
  let q8 := n / 8
  let q4 := n % 8 / 4
  let q1 := n % 4
  let h8 := (List.range q8).foldl (fun h t => tail8 h (BitVec.ofNat 64 (sumLE m (8 * t) 8))) h
  let h4 := (List.range q4).foldl (fun h _ => tail4 h (BitVec.ofNat 32 (sumLE m (8 * q8) 4))) h8
  (List.range q1).foldl (fun h r => tail1 h (m.getD (8 * q8 + 4 * q4 + r) 0)) h4

/-- The phase table of R37: what an accepted word makes of PH and FCODE; `none` for a reserved
encoding. -/
def phaseTable : Phase → Option Instr → FaultCode → Phase × FaultCode
  | .fault, _, k => (.fault, k)
  | _, none, _ => (.fault, .reservedCmd)
  | _, some (.init _), k => (.absorb, k)
  | .absorb, some (.group _ _ _ _), k => (.absorb, k)
  | .absorb, some (.final _ _), k => (.done, k)
  | _, some (.group _ _ _ _), _ => (.fault, .sequence)
  | _, some (.final _ _), _ => (.fault, .sequence)

/-- The encodings of PH and of the status outputs (R36, R39): `phase`, `hash_valid`, `fault`. -/
def phaseOutputs : Phase → BitVec 2 × Bool × Bool
  | .idle => (0#2, false, false)
  | .absorb => (1#2, false, false)
  | .done => (2#2, true, false)
  | .fault => (3#2, false, true)

/-- The encodings of FCODE (R38). -/
def codeOutput : FaultCode → BitVec 2
  | .noFault => 0#2
  | .reservedCmd => 1#2
  | .sequence => 2#2
  | .unused => 3#2

/-- `s` after the edge at its port, `rest` still to come, has had its word accepted: the model's own
fields, and no register. `draws` grows where the word was changed while presented
(notes/assumptions/12.md). -/
def taken (e : PortEdge) (rest : List PortEdge) (s : State) : State :=
  { s with
    port := rest
    presented := .nothing
    draws := if s.presented.hold e = .changed then s.draws + 1 else s.draws }

/-- The edges that accept the given words, one after the other. -/
def acceptWords (words : List Cmd) : List PortEdge := words.map acceptEdge

/-- A lane register by its alias, after GROUP words `ws` for that lane (R162). -/
def roundAll (x0 : Word) (ws : List Word) : Word := ws.foldl laneRound x0

/-- A group as its four input words. -/
structure Words where
  l0 : Word
  l1 : Word
  l2 : Word
  l3 : Word
  deriving DecidableEq, Repr

/-- INIT and then one GROUP for each of `gs`. -/
def opened (seed : Word) (gs : List Words) : List Instr :=
  .init seed :: gs.map fun g => .group g.l0 g.l1 g.l2 g.l3

end Sys2Proof.Claims

open Sys2Proof.Claims

/-! ## Encoding -/

/-- Derived from the format tables of R93 and the operands of R94 and R99: decoding the word of a
well-formed command gives it back, for every value of every operand. -/
def Obligations.DecodeEncodeRoundTrip : Prop :=
  ∀ i : Instr, i.wellFormed = true → decode (encode i) = .ok i

/-- Derived from R93, R97 and R101: a word that decodes is a well-formed command, and encoding it gives
the word back with exactly the ignored bits cleared. -/
def Obligations.EncodeDecodeKeepsReadBits : Prop :=
  ∀ (w : Cmd) (i : Instr), decode w = .ok i →
    i.wellFormed = true ∧
    ∀ k < 264, (encode i).getLsbD k = (w.getLsbD k && (decide (256 ≤ k) || decide (k < operandBits i)))

/-- R95, the opcode map by `match` and `mask`, with the operands of its rows. -/
def Obligations.DecodeFollowsOpcodeMap : Prop :=
  ∀ w : Cmd,
    (w.extractLsb' 256 8 &&& 0xFF#8 = 0x20#8 → decode w = .ok (.init (w.extractLsb' 0 64))) ∧
    (w.extractLsb' 256 8 &&& 0xFF#8 = 0x40#8 →
      decode w = .ok (.group (w.extractLsb' 0 64) (w.extractLsb' 64 64) (w.extractLsb' 128 64)
        (w.extractLsb' 192 64))) ∧
    (w.extractLsb' 256 8 &&& 0xE0#8 = 0x60#8 →
      ∃ (n : Fin 32) (tail : List Byte), decode w = .ok (.final n tail) ∧
        n.val = (w.extractLsb' 256 8).toNat - 0x60 ∧ tail.length = n.val ∧
        ∀ i < n.val, tail[i]? = some (w.extractLsb' (8 * i) 8)) ∧
    (w.extractLsb' 256 8 &&& 0xFF#8 ≠ 0x20#8 → w.extractLsb' 256 8 &&& 0xFF#8 ≠ 0x40#8 →
      w.extractLsb' 256 8 &&& 0xE0#8 ≠ 0x60#8 → ∃ r, decode w = .error r)

/-- R96: the reserved headers by their ranges and their number, and what accepting one does. -/
def Obligations.ReservedEncodings : Prop :=
  (∀ w : Cmd, (∃ r, decode w = .error r) ↔ reservedHeader (w.extractLsb' 256 8).toNat = true) ∧
  ((List.range 256).filter reservedHeader).length = 222 ∧
  ((List.range 256).filter fun h => !reservedHeader h).length = 34 ∧
  (∃ r, decode 0 = .error r) ∧
  ∀ (w : Cmd) (s : State), reservedHeader (w.extractLsb' 256 8).toNat = true → s.ph ≠ .fault →
    acceptCommand w s = .next { s with ph := .fault, fcode := .reservedCmd }

/-- Words written out from the format tables of R93: `20 : 01 …`, `40 : 00 01 … 1F`,
`63 : 61 62 63 00 …`, `00 …` and `41 …`. -/
def Obligations.SampleWordsDecode : Prop :=
  decode 0x200000000000000000000000000000000000000000000000000123456789ABCDEF#264 =
    .ok (.init 0x0123456789ABCDEF#64) ∧
  decode 0x401F1E1D1C1B1A191817161514131211100F0E0D0C0B0A09080706050403020100#264 =
    .ok (.group 0x0706050403020100#64 0x0F0E0D0C0B0A0908#64 0x1716151413121110#64
      0x1F1E1D1C1B1A1918#64) ∧
  decode 0x630000000000000000000000000000000000000000000000000000000000636261#264 =
    .ok (.final 3 [0x61#8, 0x62#8, 0x63#8]) ∧
  (decode 0#264).toOption = none ∧
  (decode (0x41#264 <<< 256)).toOption = none

/-- R92: a command word as an integer, and `PayRead` as a slice of it. -/
def Obligations.PayloadBytesOfWord : Prop :=
  ∀ w : Cmd,
    (∀ i < 32, (payBytes w 32)[i]? = some (w.extractLsb' (8 * i) 8)) ∧
    w.toNat = (headerOf w).toNat * 2 ^ 256 +
      ∑ i ∈ Finset.range 32, 2 ^ (8 * i) * (payByte w i).toNat ∧
    (∀ j < 4, payRead (payBytes w 32) (8 * j) 8 = w.extractLsb' (64 * j) 64) ∧
    (∀ off ≤ 28, payRead (payBytes w 32) off 4 = w.extractLsb' (8 * off) 32) ∧
    (∀ off < 32, payRead (payBytes w 32) off 1 = w.extractLsb' (8 * off) 8)

/-- R62: the word at byte position `q` of width `w` bytes. -/
def Obligations.PayReadIsLittleEndian : Prop :=
  ∀ (m : List Byte) (q w : Nat), q + w ≤ m.length →
    (payRead m q w).toNat = ∑ i ∈ Finset.range w, 2 ^ (8 * i) * (m.getD (q + i) 0).toNat

/-- Derived from R98: a listing has 33 bytes, header first and then the payload in message order, and
writes exactly one word; any 33 bytes are the listing of a word, and no other number of bytes is. -/
def Obligations.ListingRoundTrip : Prop :=
  (∀ w : Cmd, (listing w).length = 33 ∧ ofListing (listing w) = some w ∧
    (listing w)[0]? = some (headerOf w) ∧ ∀ i < 32, (listing w)[i + 1]? = some (payByte w i)) ∧
  ∀ bytes : List Byte,
    (bytes.length = 33 → ∃ w, ofListing bytes = some w ∧ listing w = bytes) ∧
    (bytes.length ≠ 33 → ofListing bytes = none)

/-- Derived from R98 and R102, and the model's numbering of table words (notes/assumptions/7.md): the
word placed by `withFetchWord` is the very next command, run as the decoder reads it, with nothing left
presented at the port (the model's own field, notes/assumptions/12.md). -/
def Obligations.FetchWordRunsNext : Prop :=
  ∀ (s : State) (nbits w : Nat) (i : Instr), decodeTableWord nbits w = some i →
    step (s.withFetchWord nbits w) = exec i { s with presented := .nothing }

/-! ## Datapath -/

/-- R121: rotation bit by bit, as shifts, and keeping the number of one bits. -/
def Obligations.RotateLeftBits : Prop :=
  ∀ (x : Word) (k : Nat), 1 ≤ k → k ≤ 63 →
    (∀ i < 64, (rotl64 x k).getLsbD i = x.getLsbD ((i + 64 - k) % 64)) ∧
    (rotl64 x k).toNat = x.toNat * 2 ^ k % 2 ^ 64 ||| x.toNat / 2 ^ (64 - k) ∧
    ((Finset.range 64).filter fun i => (rotl64 x k).getLsbD i = true).card =
      ((Finset.range 64).filter fun i => x.getLsbD i = true).card

/-- R122: the xor-shift bit by bit, for the three amounts it is used with. -/
def Obligations.XorShiftBits : Prop :=
  ∀ (x : Word) (k : Nat), k = 33 ∨ k = 29 ∨ k = 32 →
    (∀ i < 64, (x >>> k).getLsbD i = if i + k ≤ 63 then x.getLsbD (i + k) else false) ∧
    xs x k = x ^^^ x >>> k ∧
    ∀ i < 64, (xs x k).getLsbD i =
      if i ≤ 63 - k then Bool.xor (x.getLsbD i) (x.getLsbD (i + k)) else x.getLsbD i

/-- R124: the lane round in integer arithmetic, and its two corner cases. -/
def Obligations.RoundInIntegers : Prop :=
  (∀ acc w : Word, (laneRound acc w).toNat = roundNat acc.toNat w.toNat) ∧
  laneRound 0 0 = 0 ∧ ∀ w : Word, laneRound (0 - w * prime2) w = 0

/-- R125 and R126: the lane merge in integer arithmetic, and its corner cases. -/
def Obligations.LaneMergeInIntegers : Prop :=
  (∀ a b c d : Word, (merge4 a b c d).toNat =
    (rotNat a.toNat 1 + rotNat b.toNat 7 + rotNat c.toNat 12 + rotNat d.toNat 18) % 2 ^ 64) ∧
  (∀ h x : Word, (mergeround h x).toNat =
    ((h.toNat ^^^ roundNat 0 x.toNat) * p1 + p4) % 2 ^ 64) ∧
  merge4 0 0 0 0 = 0 ∧ mergeround 0 0 = prime4

/-- R127, R128, R129 and R132: the tail steps in integer arithmetic, the narrow operands unsigned, and
the corner cases. -/
def Obligations.TailStepsInIntegers : Prop :=
  (∀ h w : Word, (tail8 h w).toNat =
    (rotNat (h.toNat ^^^ roundNat 0 w.toNat) 27 * p1 + p4) % 2 ^ 64) ∧
  (∀ (h : Word) (w : BitVec 32), (tail4 h w).toNat =
    (rotNat (h.toNat ^^^ w.toNat * p1 % 2 ^ 64) 23 * p2 + p3) % 2 ^ 64) ∧
  (∀ (h : Word) (b : Byte), (tail1 h b).toNat =
    rotNat (h.toNat ^^^ b.toNat * p5 % 2 ^ 64) 11 * p1 % 2 ^ 64) ∧
  tail8 0 0 = prime4 ∧ tail4 0 0 = prime3 ∧ tail4 0 0xFFFFFFFF#32 = 0xC412DD1A87DA8451#64 ∧
  tail1 0 0 = 0 ∧ tail1 0 0xFF#8 = 0x6F974583107FD1D8#64

/-- R130: the avalanche in integer arithmetic, and its corner case. -/
def Obligations.AvalancheInIntegers : Prop :=
  (∀ h : Word,
    let a := h.toNat ^^^ h.toNat / 2 ^ 33
    let b := a * p2 % 2 ^ 64
    let c := b ^^^ b / 2 ^ 29
    let d := c * p3 % 2 ^ 64
    (avalanche h).toNat = d ^^^ d / 2 ^ 32) ∧
  avalanche 0 = 0

/-- R133: every elementary step and every mixing function is a bijection, with the inverses the rule
gives. -/
def Obligations.DatapathIsInvertible : Prop :=
  prime1 * 0x0887493432BADB37#64 = 1#64 ∧ prime2 * 0x0BA79078168D4BAF#64 = 1#64 ∧
  prime3 * 0xE9E9F4C41D6DF849#64 = 1#64 ∧
  (∀ k : Word, Function.Bijective fun x : Word => x + k) ∧
  (∀ k, 1 ≤ k → k ≤ 63 → Function.Bijective fun x : Word => rotl64 x k) ∧
  (∀ k : Word, k.getLsbD 0 = true → Function.Bijective fun x : Word => x * k) ∧
  (∀ y : Word, xs (xs y 33) 33 = y ∧ xs (xs y 32) 32 = y ∧
    (let z := xs y 29; z ^^^ z >>> 29 ^^^ z >>> 58) = y) ∧
  (∀ k, k = 33 ∨ k = 29 ∨ k = 32 → Function.Bijective fun x : Word => xs x k) ∧
  Function.Bijective avalanche ∧
  (∀ w, Function.Bijective fun acc => laneRound acc w) ∧ (∀ acc, Function.Bijective (laneRound acc)) ∧
  (∀ x, Function.Bijective fun h => mergeround h x) ∧
  (∀ x, Function.Bijective fun h => tail8 h x) ∧ (∀ x, Function.Bijective fun h => tail4 h x) ∧
  (∀ x, Function.Bijective fun h => tail1 h x) ∧
  ∀ h : Word,
    (let y := avalanche h
     let y := y ^^^ y >>> 32
     let y := y * 0xE9E9F4C41D6DF849#64
     let y := y ^^^ y >>> 29 ^^^ y >>> 58
     let y := y * 0x0BA79078168D4BAF#64
     y ^^^ y >>> 33) = h

/-! ## The three commands: completion, result and frame -/

/-- R150: the word with header 0x20 is INIT with seed `cmd[63:0]`, and with n ≠ 0 no INIT at all. INIT
completes in every phase but FAULT, where it is dropped; it writes SEED, the lanes, LEN and PH, and
nothing else. Lanes A and D are given by the constants the rule derives. -/
def Obligations.InitResult : Prop :=
  (∀ w : Cmd, headerOf w = 0x20#8 → decode w = .ok (.init (w.extractLsb' 0 64))) ∧
  (∀ w : Cmd, opOf w = 1#3 → nOf w ≠ 0#5 → ∃ r, decode w = .error r) ∧
  ∀ (seed : Word) (s : State),
    (s.ph ≠ .fault → exec (.init seed) s = .next { s with
      seed := seed
      laneA := seed + 0x60EA27EEADC0B5D6#64
      laneB := seed + 0xC2B2AE3D27D4EB4F#64
      laneC := seed
      laneD := seed + 0x61C8864E7A143579#64
      len := 0
      ph := .absorb }) ∧
    (s.ph = .fault → exec (.init seed) s = .next s)

/-- R160: the word with header 0x40 is GROUP with `Lj = cmd[64j+63:64j] = PayRead(8j, 8)`, and with n ≠ 0
no GROUP at all. GROUP completes in ABSORB; each lane takes the round of its own old value and its own input
word, LEN grows by 32, and nothing else is written. In IDLE and DONE it raises SEQUENCE and writes PH
and FCODE only; in FAULT it is dropped. -/
def Obligations.GroupResult : Prop :=
  (∀ w : Cmd, headerOf w = 0x40#8 →
    decode w = .ok (.group (w.extractLsb' 0 64) (w.extractLsb' 64 64) (w.extractLsb' 128 64)
      (w.extractLsb' 192 64)) ∧
    decode w = .ok (groupOf (payBytes w 32))) ∧
  (∀ w : Cmd, opOf w = 2#3 → nOf w ≠ 0#5 → ∃ r, decode w = .error r) ∧
  ∀ (l0 l1 l2 l3 : Word) (s : State),
    (s.ph = .absorb → exec (.group l0 l1 l2 l3) s = .next { s with
      laneA := BitVec.ofNat 64 (roundNat s.laneA.toNat l0.toNat)
      laneB := BitVec.ofNat 64 (roundNat s.laneB.toNat l1.toNat)
      laneC := BitVec.ofNat 64 (roundNat s.laneC.toNat l2.toNat)
      laneD := BitVec.ofNat 64 (roundNat s.laneD.toNat l3.toNat)
      len := BitVec.ofNat 64 (s.len.toNat + 32) }) ∧
    (s.ph = .idle ∨ s.ph = .done →
      exec (.group l0 l1 l2 l3) s = .next { s with ph := .fault, fcode := .sequence }) ∧
    (s.ph = .fault → exec (.group l0 l1 l2 l3) s = .next s)

/-- R170, with the tail steps counted as in R176: the word with header `0x60 + n` is FINAL with tail
`PAY[0..n-1]`. FINAL completes in ABSORB; HASH takes the hash, LEN
the counter with the tail added, PH becomes DONE, and nothing else is written. In IDLE and DONE it
raises SEQUENCE and writes PH and FCODE only; in FAULT it is dropped. -/
def Obligations.FinalResult : Prop :=
  (∀ (w : Cmd) (n : Fin 32), (headerOf w).toNat = 0x60 + n.val →
    decode w = .ok (.final n ((List.range n.val).map fun i => w.extractLsb' (8 * i) 8))) ∧
  ∀ (n : Fin 32) (tail : List Byte) (s : State), tail.length = n.val →
    (s.ph = .absorb → exec (.final n tail) s = .next { s with
      hash := avalanche (tailByCounts n.val tail
        ((if 32 ≤ (s.len.toNat + n.val) % 2 ^ 64 then
            mergeround (mergeround (mergeround (mergeround
              (merge4 s.laneA s.laneB s.laneC s.laneD) s.laneA) s.laneB) s.laneC) s.laneD
          else s.seed + 0x27D4EB2F165667C5#64) + BitVec.ofNat 64 (s.len.toNat + n.val)))
      len := BitVec.ofNat 64 (s.len.toNat + n.val)
      ph := .done }) ∧
    (s.ph = .idle ∨ s.ph = .done →
      exec (.final n tail) s = .next { s with ph := .fault, fcode := .sequence }) ∧
    (s.ph = .fault → exec (.final n tail) s = .next s)

/-- R32 to R38 as one whole-machine rule, derived from R37, R150, R160, R170 and R204: which command
may write which of the nine registers, in any phase; for LEN, PH and FCODE also what it writes. The
model's own fields are written by no command. -/
def Obligations.RegisterWriters : Prop :=
  ∀ (i : Instr) (s t : State), exec i s = .next t →
    (t.seed ≠ s.seed → s.ph ≠ .fault ∧ ∃ seed, i = .init seed) ∧
    ((t.laneA ≠ s.laneA ∨ t.laneB ≠ s.laneB ∨ t.laneC ≠ s.laneC ∨ t.laneD ≠ s.laneD) →
      (s.ph ≠ .fault ∧ ∃ seed, i = .init seed) ∨
      (s.ph = .absorb ∧ ∃ l0 l1 l2 l3, i = .group l0 l1 l2 l3)) ∧
    (t.len ≠ s.len →
      (s.ph ≠ .fault ∧ t.len = 0 ∧ ∃ seed, i = .init seed) ∨
      (s.ph = .absorb ∧ t.len = s.len + 32#64 ∧ ∃ l0 l1 l2 l3, i = .group l0 l1 l2 l3) ∨
      (s.ph = .absorb ∧ ∃ n tail, i = .final n tail ∧ t.len = s.len + BitVec.ofNat 64 n.val)) ∧
    (t.hash ≠ s.hash → s.ph = .absorb ∧ ∃ n tail, i = .final n tail) ∧
    (t.ph ≠ s.ph →
      (s.ph ≠ .fault ∧ t.ph = .absorb ∧ ∃ seed, i = .init seed) ∨
      (s.ph = .absorb ∧ t.ph = .done ∧ ∃ n tail, i = .final n tail) ∨
      ((s.ph = .idle ∨ s.ph = .done) ∧ t.ph = .fault ∧ ∀ seed, i ≠ .init seed)) ∧
    (t.fcode ≠ s.fcode →
      t.ph = .fault ∧ t.fcode = .sequence ∧ (s.ph = .idle ∨ s.ph = .done) ∧
        ∀ seed, i ≠ .init seed) ∧
    t.port = s.port ∧ t.presented = s.presented ∧ t.draws = s.draws

/-- R31: the lanes are `x[0]` to `x[3]`, and no command makes the new value of one lane depend on the
old value of another: two states that agree on a lane, and on PH, agree on it after the command. FINAL, which reads all four together, writes none. -/
def Obligations.LanesAreIndependent : Prop :=
  (∀ s : State, s.x 0 = s.laneA ∧ s.x 1 = s.laneB ∧ s.x 2 = s.laneC ∧ s.x 3 = s.laneD) ∧
  (∀ (i : Instr) (k : Fin 4) (s t s' t' : State), s.ph = t.ph → s.x k = t.x k →
    exec i s = .next s' → exec i t = .next t' → s'.x k = t'.x k) ∧
  ∀ (n : Fin 32) (tail : List Byte) (k : Fin 4) (s t : State),
    exec (.final n tail) s = .next t → t.x k = s.x k

/-! ## The step -/

/-- Derived from R40, R72, R101 and R205: a step whose edge accepts a word that decodes is that command,
executed with the edge taken off the port, in every phase, where the word is new at the edge or is the
one presented before; where the host changed it (R248 H3), the step is the command that the free word of
notes/assumptions/12.md decodes to. -/
def Obligations.StepRunsDecodedInstruction : Prop :=
  ∀ (s : State) (e : PortEdge) (rest : List PortEdge) (i : Instr),
    s.port = e :: rest → e.rst = false → e.cmdValid = true → e.cmdReady = true →
    (s.presented = .nothing ∨ s.presented = .steady e.cmd → decode e.cmd = .ok i →
      step s = exec i { s with port := rest, presented := .nothing }) ∧
    (s.presented ≠ .nothing → s.presented ≠ .steady e.cmd →
      decode (Config.changedWord s.draws) = .ok i →
      step s = exec i { s with port := rest, presented := .nothing, draws := s.draws + 1 })

/-- R205: the order of the checks at a rising clock edge. The word checked is the word accepted, which
StepRunsDecodedInstruction and ChangedWordIsUnspecified say is the word at the edge or, where the host
changed it, a free value. What an edge leaves in `presented`, the model's own field, is the model's
reading (notes/assumptions/16.md). -/
def Obligations.OrderOfChecks : Prop :=
  ∀ (s : State) (e : PortEdge) (rest : List PortEdge), s.port = e :: rest →
    (e.rst = true → ∃ t, step s = .next t ∧ t.ph = .idle ∧ t.fcode = .noFault ∧ t.port = rest) ∧
    (e.rst = false → e.cmdValid = false ∨ e.cmdReady = false →
      step s = .next { s with port := rest, presented := s.presented.hold e }) ∧
    (e.rst = false → e.cmdValid = true → e.cmdReady = true →
      (s.ph = .fault → step s = .next (taken e rest s)) ∧
      (s.ph ≠ .fault →
        (∀ r, decode (acceptedWord e s) = .error r →
          step s = .next { taken e rest s with ph := .fault, fcode := .reservedCmd }) ∧
        (∀ i, decode (acceptedWord e s) = .ok i →
          ((∀ seed, i ≠ .init seed) → s.ph ≠ .absorb →
            step s = .next { taken e rest s with ph := .fault, fcode := .sequence }) ∧
          ((∃ seed, i = .init seed) ∨ s.ph = .absorb →
            step s = exec i (taken e rest s)))))

/-- R37: the phase table, cell by cell, for any word accepted in any phase, and for `rst`; with it the
outputs of every phase, whose bits are those of R36, R38 and R39. -/
def Obligations.PhaseTable : Prop :=
  (∀ (s : State) (e : PortEdge) (rest : List PortEdge), s.port = e :: rest →
    (e.accepts = true → ∃ t, step s = .next t ∧
      (t.ph, t.fcode) = phaseTable s.ph (decode (acceptedWord e s)).toOption s.fcode ∧
      (s.ph = .fault → t = taken e rest s)) ∧
    (e.rst = true → ∃ t, step s = .next t ∧ t.ph = .idle)) ∧
  ∀ s : State, (phasePort s, hashValid s, faultPort s) = phaseOutputs s.ph ∧
    fcodePort s = codeOutput s.fcode ∧
    outputs s = {
      hash := if s.ph = .done then some s.hash else none
      hashValid := hashValid s
      fault := faultPort s
      fcode := fcodePort s
      phase := phasePort s }

/-- R201: the two faults, exactly when each is raised, for a core that is not in FAULT and whose FCODE
is clear; the header is that of the word accepted. -/
def Obligations.FaultCauses : Prop :=
  ∀ (s t : State) (e : PortEdge) (rest : List PortEdge), s.port = e :: rest → e.accepts = true →
    s.ph ≠ .fault → s.fcode = .noFault → step s = .next t →
    let header := (headerOf (acceptedWord e s)).toNat
    (t.fcode.bits = 1#2 ↔ reservedHeader header = true) ∧
    (t.fcode.bits = 2#2 ↔ (s.ph = .idle ∨ s.ph = .done) ∧
      (header = 0x40 ∨ 0x60 ≤ header ∧ header ≤ 0x7F)) ∧
    (t.fcode.bits ≠ 0#2 → t = { taken e rest s with ph := .fault, fcode := t.fcode })

/-- R204 and R207: whatever step enters FAULT, it writes PH and FCODE and no other register, and the
outputs follow. -/
def Obligations.FaultEntryIsPrecise : Prop :=
  ∀ s t : State, step s = .next t → s.ph ≠ .fault → t.ph = .fault →
    t = { s with
      port := s.port.tail
      presented := .nothing
      draws := t.draws
      ph := .fault
      fcode := t.fcode } ∧
    (t.fcode = .reservedCmd ∨ t.fcode = .sequence) ∧
    faultPort t = true ∧ hashValid t = false ∧ hashPort t = none

/-- R206: in FAULT every accepted command is dropped, however many come, and every register stays as it
is (`port`, `presented` and `draws` are the model's own); a reset edge, and nothing
else, leaves FAULT. -/
def Obligations.FaultIsSticky : Prop :=
  (∀ (edges : List PortEdge) (s : State), s.ph = .fault → (∀ e ∈ edges, e.rst = false) →
    ∃ t, runEdges edges s = .next t ∧
      t = { s with port := [], presented := t.presented, draws := t.draws }) ∧
  ∀ s t : State, s.ph = .fault → step s = .next t → t.ph ≠ .fault →
    (∃ e rest, s.port = e :: rest ∧ e.rst = true) ∧ t.ph = .idle ∧ t.fcode = .noFault

/-- R230: a reset edge, whatever the phase and whatever command is presented with it, which is not
accepted; the outputs of R231 follow; and nothing else leaves FAULT. Nothing is said of the data
registers, which the rule leaves unspecified. -/
def Obligations.ResetEdgeClearsControl : Prop :=
  (∀ (s : State) (e : PortEdge) (rest : List PortEdge), s.port = e :: rest → e.rst = true →
    e.accepts = false ∧
    ∃ t, step s = .next t ∧ t.port = rest ∧ t.ph = .idle ∧ t.fcode = .noFault ∧
      outputs t = { hash := none, hashValid := false, fault := false, fcode := 0#2, phase := 0#2 }) ∧
  ∀ s t : State, s.ph = .fault → step s = .next t → t.ph ≠ .fault →
    ∃ e rest, s.port = e :: rest ∧ e.rst = true

/-- Derived from R40, R205, R216, R248 (H3) and R250: where the host holds `cmd` stable, edges at which
no command is accepted and no reset is asserted, wherever they stand, leave no trace in any register:
only the eventful edges decide the run. What the last of them leaves presented is the model's own. That a
word withdrawn by `cmd_valid` = 0 and replaced by another counts as held stable, and that a reset edge
does not end a presentation, is the model's reading (notes/assumptions/16.md, DEDUCED), in the premise
`commandStable` and in the step. -/
def Obligations.WaitingEdgesAreInvisible : Prop :=
  ∀ (edges : List PortEdge) (s : State), s.presented = .nothing → commandStable edges = true →
    ∃ t, runEdges edges s = .next t ∧
      runEdges (eventful edges) s = .next { t with presented := .nothing }

/-- Derived from R250 and from the model's choices that `cmd_ready` is an input at every edge
(notes/assumptions/4.md) and that a command's whole effect is at the accepting edge
(notes/assumptions/5.md): for words followed by any numbers of busy edges, the registers after the last
are those of the words accepted back to back. The first clause is about the inputs chosen, not about the
model, which does not enforce it: their `cmd_ready` has the shape that R250 gives it. -/
def Obligations.LatencyIsInvisible : Prop :=
  ∀ (words : List (Cmd × Nat)) (s : State),
    readyDiscipline false (paced words) = true ∧
    runEdges (paced words) s = runEdges (words.map fun p => acceptEdge p.1) s

/-- Derived from R40, R72 and R248 (H3): where the host holds each word until it is accepted, and is
not left waiting at the end, the words accepted are the words offered, in order, and the run is that of
the words offered. -/
def Obligations.HeldCommandsAreAcceptedAsOffered : Prop :=
  ∀ edges : List PortEdge, commandHeld edges = true → (∀ e ∈ edges, e.rst = false) →
    (∀ e, edges.getLast? = some e → e.cmdValid = true → e.cmdReady = true) →
    accepted edges = offered false edges ∧
    ∀ s : State, s.presented = .nothing →
      runEdges edges s = runEdges (acceptWords (offered false edges)) s

/-- Derived from R134 and R200, which speak of the arithmetic and of the block's own faults, and from
the model's choices that its type of faults is empty, U7's model fault not being made
(notes/assumptions/11.md), and that registers left unspecified hold values (notes/assumptions/1.md, 2.md):
no step of the machine, in any state and under any input, stops with a fault or a refusal. -/
def Obligations.RunNeverStops : Prop :=
  ∀ (k : Nat) (s : State), ∃ t, run k s = .next t

/-! ## Invariants and whole-machine rules -/

/-- Derived from R33 and R38: every step keeps the invariant, from every state that has it. -/
def Obligations.StepKeepsInvariant : Prop :=
  ∀ s t : State, Inv s → step s = .next t → Inv t

/-- R45's values for PH and FCODE, the outputs of R231, and the invariant, at reset. Nothing is said of
the zeros of the data registers, which are the model's choice (notes/assumptions/1.md). -/
def Obligations.ResetMeetsInvariant : Prop :=
  Inv State.reset ∧ State.reset.ph.bits = 0#2 ∧ State.reset.fcode.bits = 0#2 ∧
    outputs State.reset =
      { hash := none, hashValid := false, fault := false, fcode := 0#2, phase := 0#2 }

/-- R35: only FINAL writes HASH (reset apart, which leaves it unspecified), HASH does not change while
PH = DONE, and the `hash` port carries it exactly then. -/
def Obligations.HashIsWrittenByFinalOnly : Prop :=
  ∀ (s t : State) (e : PortEdge) (rest : List PortEdge), s.port = e :: rest → e.rst = false →
    step s = .next t →
    (t.hash ≠ s.hash → s.ph = .absorb ∧ t.ph = .done ∧ e.accepts = true ∧
      ∃ n tail, decode (acceptedWord e s) = .ok (.final n tail)) ∧
    (s.ph = .done → t.hash = s.hash) ∧
    (∀ h, hashPort t = some h ↔ t.ph = .done ∧ t.hash = h) ∧
    (hashPort t = none ↔ t.ph ≠ .done)

/-- Derived from R44 and R45 ("No rule can read an unspecified register"): two cores that differ only
in registers that are unspecified or have no further meaning (the model's own fields being equal) show
the same outputs under the same inputs for ever, resets and what they leave unspecified included. So no claim about outputs rests on
the values the model chose at reset. -/
def Obligations.UnspecifiedRegistersNeverShow : Prop :=
  ∀ (k : Nat) (s t s' t' : State), SameVisible s t → run k s = .next s' → run k t = .next t' →
    outputs s' = outputs t' ∧ SameVisible s' t'

/-- R153: after an INIT that executed, the registers of the computation are functions of the seed
alone: neither the earlier state nor a bit of `cmd[255:64]` influences them; so the hash of a message
(of any length) does not depend on what the core did before. -/
def Obligations.InitForgetsThePast : Prop :=
  (∀ (s1 s2 : State) (w1 w2 : Cmd), headerOf w1 = 0x20#8 → headerOf w2 = 0x20#8 →
    w1.extractLsb' 0 64 = w2.extractLsb' 0 64 → s1.ph ≠ .fault → s2.ph ≠ .fault →
    ∃ t1 t2, acceptCommand w1 s1 = .next t1 ∧ acceptCommand w2 s2 = .next t2 ∧
      t1.laneA = t2.laneA ∧ t1.laneB = t2.laneB ∧ t1.laneC = t2.laneC ∧ t1.laneD = t2.laneD ∧
      t1.len = t2.len ∧ t1.seed = t2.seed ∧ t1.ph = t2.ph) ∧
  ∀ (seed : Word) (m : List Byte) (s1 s2 : State), s1.ph ≠ .fault → s2.ph ≠ .fault →
    ∃ t1 t2, runCommands (hashCommands seed m) s1 = .next t1 ∧
      runCommands (hashCommands seed m) s2 = .next t2 ∧ t1.ph = .done ∧ t2.ph = .done ∧
      t1.hash = t2.hash

/-- R67: payload bytes that a command does not read have no effect on any register, in any state. -/
def Obligations.UnreadPayloadHasNoEffect : Prop :=
  ∀ (w1 w2 : Cmd) (s : State), headerOf w1 = headerOf w2 →
    (∀ i < bytesRead (headerOf w1), payByte w1 i = payByte w2 i) →
    acceptCommand w1 s = acceptCommand w2 s

/-! ## Computations -/

/-- R162: after INIT and any number of groups, each lane is the rounds of its own words over
its INIT value, LEN is 32 times the number of groups modulo 2^64, and SEED and HASH are kept. -/
def Obligations.LanesAfterGroups : Prop :=
  ∀ (seed : Word) (gs : List Words) (s : State), s.ph ≠ .fault →
    runCommands (opened seed gs) s = .next { s with
      laneA := roundAll (seed + 0x60EA27EEADC0B5D6#64) (gs.map Words.l0)
      laneB := roundAll (seed + 0xC2B2AE3D27D4EB4F#64) (gs.map Words.l1)
      laneC := roundAll seed (gs.map Words.l2)
      laneD := roundAll (seed + 0x61C8864E7A143579#64) (gs.map Words.l3)
      len := BitVec.ofNat 64 (32 * gs.length)
      seed := seed
      ph := .absorb
      port := []
      presented := .nothing }

/-- R33: after INIT, `g` groups and FINAL with tail length `n`, LEN is `(32·g + n) mod 2^64`. -/
def Obligations.LenCountsMessageBytes : Prop :=
  ∀ (seed : Word) (gs : List Words) (n : Fin 32) (tail : List Byte) (s : State), s.ph ≠ .fault →
    tail.length = n.val →
    (∃ t, runCommands (opened seed gs) s = .next t ∧ t.ph = .absorb ∧
      t.len.toNat = 32 * gs.length % 2 ^ 64) ∧
    ∃ t, runCommands (opened seed gs ++ [.final n tail]) s = .next t ∧ t.ph = .done ∧
      t.len.toNat = (32 * gs.length + n.val) % 2 ^ 64

/-- R180: below 2^64 bytes the test on the counter and the history agree: FINAL takes the merge path
exactly when a group was absorbed; and on the short path lane C still holds the seed. -/
def Obligations.MergeTestMeansGroupsSeen : Prop :=
  ∀ (seed : Word) (gs : List Words) (n : Fin 32) (s t : State), s.ph ≠ .fault →
    32 * gs.length + n.val < 2 ^ 64 → runCommands (opened seed gs) s = .next t →
    (32#64 ≤ t.len + BitVec.ofNat 64 n.val ↔ 1 ≤ gs.length) ∧
    (gs.length = 0 → t.seed + prime5 = t.laneC + prime5)

/-- R181: the commands of a complete message of fewer than 2^64 bytes, from any state but FAULT and
whatever was computed before, end in DONE with the xxHash64 value of seed and message on the `hash`
port. -/
def Obligations.HashOfMessage : Prop :=
  ∀ (seed : Word) (m : List Byte) (s : State), s.ph ≠ .fault → m.length < 2 ^ 64 →
    ∃ t, runCommands (hashCommands seed m) s = .next t ∧ endedWell t = true ∧
      hashPort t = some (xxh64 seed m) ∧ t.len = BitVec.ofNat 64 m.length ∧ t.seed = seed ∧
      t.fcode = s.fcode ∧ t.port = []

/-- R63: the command sequence of a message: INIT, then GROUP number `j` with
`PAY[i] = m[32j + i]`, then FINAL with `n = N mod 32` and `PAY[i] = m[32g + i]`. -/
def Obligations.CommandsCarryTheMessage : Prop :=
  ∀ (seed : Word) (m : List Byte),
    let words := (hashCommands seed m).map encode
    words.length = m.length / 32 + 2 ∧
    (∃ w, words[0]? = some w ∧ headerOf w = 0x20#8 ∧ w.extractLsb' 0 64 = seed) ∧
    (∀ j < m.length / 32, ∃ w, words[j + 1]? = some w ∧ headerOf w = 0x40#8 ∧
      ∀ i < 32, m[32 * j + i]? = some (payByte w i)) ∧
    ∃ w, words[m.length / 32 + 1]? = some w ∧
      (headerOf w).toNat = 0x60 + m.length % 32 ∧
      ∀ i < m.length % 32, m[32 * (m.length / 32) + i]? = some (payByte w i)

/-- R252: for all seeds and all ways of cutting a message into chunks, the streaming host of R237
produces the commands of R236. -/
def Obligations.ChunkingNeverMatters : Prop :=
  ∀ (seed : Word) (chunks : List (List Byte)),
    streamCommands seed chunks = hashCommands seed chunks.flatten

/-- R178: the empty message. -/
def Obligations.EmptyMessage : Prop :=
  (∀ (seed : Word) (s : State), s.ph ≠ .fault →
    hashCommands seed [] = [.init seed, .final 0 []] ∧
    ∃ t, runCommands [.init seed, .final 0 []] s = .next t ∧ t.ph = .done ∧ t.len = 0 ∧
      hashPort t = some (avalanche (seed + prime5))) ∧
  avalanche (0 + prime5) = 0xEF46DB3751D8E999#64

/-- Derived from R253: for a fixed message of fewer than 32 bytes, hashed from any state but FAULT,
every hash is the hash of exactly one seed. -/
def Obligations.ShortHashIsBijectiveInSeed : Prop :=
  ∀ (m : List Byte) (s : State), m.length < 32 → s.ph ≠ .fault →
    ∀ h : Word, ∃! seed : Word, hashAfter seed m s = some h

/-- Derived from R210, R241 and R209: a cancelled or failed stream leaves the core in ABSORB and shows
no hash, and a computation started afterwards is not affected by it. -/
def Obligations.CancelledStreamShowsNothing : Prop :=
  ∀ (seed seed' : Word) (chunks : List (List Byte)) (m : List Byte) (s : State), s.ph ≠ .fault →
    m.length < 2 ^ 64 →
    (∃ t, runCommands (cancelledCommands seed chunks) s = .next t ∧ t.ph = .absorb ∧
      hashPort t = none) ∧
    ∃ t, runCommands (cancelledCommands seed chunks ++ hashCommands seed' m) s = .next t ∧
      hashPort t = some (xxh64 seed' m)

/-- Derived from R99 and R100, lines after parsing: the commands each line gives. INIT with a seed, and
alone as INIT 0; GROUP of exactly 32 bytes in message order; FINAL of `n` from 0 to 31 with exactly `n`
bytes; a byte list of the wrong length is refused. HASH is the sequence of R100 and R236, and HASHSTR is
HASH of the text's UTF-8 bytes, whose encoding is the model's (notes/assumptions/14.md). Every command
given is well-formed. -/
def Obligations.AssemblerLines : Prop :=
  (∀ (line : AsmLine) (is : List Instr), assemble line = some is → ∀ i ∈ is, i.wellFormed = true) ∧
  assemble (.init none) = some [.init 0] ∧
  (∀ seed : Word, assemble (.init (some seed)) = some [.init seed]) ∧
  (∀ bytes : List Byte,
    (bytes.length = 32 → assemble (.group bytes) = some [groupOf bytes] ∧
      ∀ k < 32, bytes[k]? = some (payByte (encode (groupOf bytes)) k)) ∧
    (bytes.length ≠ 32 → assemble (.group bytes) = none)) ∧
  (∀ (n : Nat) (bytes : List Byte),
    (∀ h : n < 32, bytes.length = n → assemble (.final n bytes) = some [.final ⟨n, h⟩ bytes]) ∧
    (32 ≤ n ∨ bytes.length ≠ n → assemble (.final n bytes) = none)) ∧
  (∀ (seed : Word) (m : List Byte),
    assemble (.hash seed m) = some (hashCommands seed m) ∧
    hashCommands seed m = [.init seed] ++
      (List.range (m.length / 32)).map (fun j => groupOf ((m.drop (32 * j)).take 32)) ++
      [.final ⟨m.length % 32, Nat.mod_lt _ (by decide)⟩ (m.drop (32 * (m.length / 32)))]) ∧
  ∀ (seed : Word) (text : String), assemble (.hashStr seed text) =
    some (hashCommands seed (utf8Bytes text))

/-- R248's H3 and its ruling U13, as far as the block sees it: a word that changes while it is presented
gives an unspecified accepted value. Derived, because R248's other duties are the host's. A core that
accepts at an edge where another word stood before, still presented, takes a free word
(notes/assumptions/12.md) and treats it by the block's rules; so nothing the host drives at that edge has
any influence. In the third clause, a word that is held is taken as it stands by R72; that a word
presented after an edge with `cmd_valid` = 0 is taken as it stands too, whatever stood presented before
that edge, is the model's reading (notes/assumptions/16.md, DEDUCED), unsafe for a host that withdraws a
word and presents another. -/
def Obligations.ChangedWordIsUnspecified : Prop :=
  (∀ (s : State) (e : PortEdge) (rest : List PortEdge) (w : Cmd),
    s.port = e :: rest → e.accepts = true → s.presented = .steady w ∨ s.presented = .changed →
    (s.presented = .steady w → w ≠ e.cmd) →
    step s = acceptCommand (Config.changedWord s.draws)
      { s with port := rest, presented := .nothing, draws := s.draws + 1 }) ∧
  (∀ (s : State) (e f g : PortEdge) (edges : List PortEdge), e.cmdValid = true → e.rst = false →
    e.cmdReady = false → f.accepts = true → g.accepts = true → f.cmd ≠ e.cmd → g.cmd ≠ e.cmd →
    runEdges (e :: f :: edges) s = runEdges (e :: g :: edges) s) ∧
  ∀ (s : State) (e f : PortEdge) (edges : List PortEdge), e.rst = false → f.accepts = true →
    e.cmdValid = false ∨ (s.presented = .nothing ∧ e.cmdReady = false ∧ e.cmd = f.cmd) →
    runEdges (e :: f :: edges) s = runEdges (acceptEdge f.cmd :: edges) { s with presented := .nothing }
end

