-- ==== Sys2Proof/Laws/Decode.lean ====
section
/-! SUPPORT. Small lemmas about the fields of a command word, little-endian byte lists, and the byte
reads made from them. -/

namespace Sys2Proof

/-! ## Fields of a packed word -/

theorem packCmd_getLsbD (h : BitVec 8) (p : Payload) (i : Nat) :
    (packCmd h p).getLsbD i = if i < 256 then p.getLsbD i else h.getLsbD (i - 256) :=
  BitVec.getLsbD_append

theorem packHeader_getLsbD (op : BitVec 3) (n : BitVec 5) (i : Nat) :
    (packHeader op n).getLsbD i = if i < 5 then n.getLsbD i else op.getLsbD (i - 5) :=
  BitVec.getLsbD_append

theorem packWords_getLsbD (l0 l1 l2 l3 : Word) (i : Nat) :
    (packWords l0 l1 l2 l3).getLsbD i =
      if i < 64 then l0.getLsbD i
      else if i - 64 < 64 then l1.getLsbD (i - 64)
      else if i - 64 - 64 < 64 then l2.getLsbD (i - 64 - 64)
      else l3.getLsbD (i - 64 - 64 - 64) := by
  unfold packWords
  refine BitVec.getLsbD_append.trans (if_congr Iff.rfl rfl ?_)
  refine BitVec.getLsbD_append.trans (if_congr Iff.rfl rfl ?_)
  exact BitVec.getLsbD_append

@[simp] theorem headerOf_packCmd (h : BitVec 8) (p : Payload) : headerOf (packCmd h p) = h := by
  ext i hi
  simp [headerOf, packCmd_getLsbD, BitVec.getLsbD_eq_getElem hi]

/-- `op` is the top of the header (R91). -/
theorem opOf_packCmd (h : BitVec 8) (p : Payload) : opOf (packCmd h p) = h.extractLsb' 5 3 := by
  ext i hi
  simp [opOf, packCmd_getLsbD, show ¬ 261 + i < 256 by omega,
    show 261 + i - 256 = 5 + i by omega]

/-- `n` is the bottom of the header (R91). -/
theorem nOf_packCmd (h : BitVec 8) (p : Payload) : nOf (packCmd h p) = h.extractLsb' 0 5 := by
  ext i hi
  simp [nOf, packCmd_getLsbD]

@[simp] theorem opOf_packHeader (op : BitVec 3) (n : BitVec 5) (p : Payload) :
    opOf (packCmd (packHeader op n) p) = op := by
  rw [opOf_packCmd]
  ext i hi
  simp [packHeader_getLsbD, BitVec.getLsbD_eq_getElem hi]

@[simp] theorem nOf_packHeader (op : BitVec 3) (n : BitVec 5) (p : Payload) :
    nOf (packCmd (packHeader op n) p) = n := by
  rw [nOf_packCmd]
  ext i hi
  simp [packHeader_getLsbD, hi]

/-- A header is its `op` and its `n` (R91). -/
theorem headerOf_eq (w : Cmd) : headerOf w = packHeader (opOf w) (nOf w) := by
  apply BitVec.eq_of_getLsbD_eq
  intro i hi
  rw [packHeader_getLsbD]
  split <;> simp [headerOf, opOf, nOf, *]
  rw [show 261 + (i - 5) = 256 + i by omega]
  simp [show i - 5 < 3 by omega]

/-- A word is its header and its payload (R91). -/
theorem packCmd_fields (w : Cmd) : packCmd (headerOf w) (w.extractLsb' 0 256) = w := by
  apply BitVec.eq_of_getLsbD_eq
  intro i hi
  rw [packCmd_getLsbD]
  split
  · simp [*]
  · rw [headerOf, BitVec.getLsbD_extractLsb', show 256 + (i - 256) = i by omega]
    simp [show i - 256 < 8 by omega]

/-- A payload byte of a packed word (R92). -/
theorem payByte_packCmd (h : BitVec 8) (p : Payload) {i : Nat} (hi : i < 32) :
    payByte (packCmd h p) i = p.extractLsb' (8 * i) 8 := by
  ext k hk
  simp [payByte, packCmd_getLsbD, show 8 * i + k < 256 by omega]

/-- A payload word of a packed word (R94). -/
theorem payWord_packCmd (h : BitVec 8) (p : Payload) {j : Nat} (hj : j < 4) :
    payWord (packCmd h p) j = p.extractLsb' (64 * j) 64 := by
  ext k hk
  simp [payWord, packCmd_getLsbD, show 64 * j + k < 256 by omega]

@[simp] theorem payBytes_length (w : Cmd) (k : Nat) : (payBytes w k).length = k := by
  simp [payBytes]

/-! ## Little-endian byte lists -/

@[simp] theorem leNat_nil : leNat [] = 0 := (rfl)

@[simp] theorem leNat_cons (b : Byte) (bs : List Byte) :
    leNat (b :: bs) = b.toNat + 256 * leNat bs := (rfl)

theorem leNat_lt (bs : List Byte) : leNat bs < 2 ^ (8 * bs.length) := by
  induction bs with
  | nil => simp
  | cons b bs ih =>
    have hb := b.isLt
    have : 2 ^ (8 * (b :: bs).length) = 256 * 2 ^ (8 * bs.length) := by
      rw [List.length_cons, Nat.mul_add, Nat.pow_add]
      omega
    rw [leNat_cons, this]
    omega

theorem leNat_append (bs cs : List Byte) :
    leNat (bs ++ cs) = leNat bs + 2 ^ (8 * bs.length) * leNat cs := by
  induction bs with
  | nil => simp
  | cons b bs ih =>
    have : 2 ^ (8 * (b :: bs).length) = 256 * 2 ^ (8 * bs.length) := by
      rw [List.length_cons, Nat.mul_add, Nat.pow_add]
      omega
    rw [List.cons_append, leNat_cons, ih, leNat_cons, this]
    ring

/-- Byte `i` of a little-endian number is the list's byte `i`. -/
theorem leNat_byte (bs : List Byte) (i : Nat) :
    leNat bs / 2 ^ (8 * i) % 256 = (bs.getD i 0).toNat := by
  induction bs generalizing i with
  | nil => simp
  | cons b bs ih =>
    have hb := b.isLt
    cases i with
    | zero =>
      simp
      omega
    | succ i =>
      have : 2 ^ (8 * (i + 1)) = 256 * 2 ^ (8 * i) := by
        rw [Nat.mul_add, Nat.pow_add]
        omega
      rw [this, ← Nat.div_div_eq_div_mul, leNat_cons,
        show (b.toNat + 256 * leNat bs) / 256 = leNat bs by omega, ih]
      simp

/-- Bytes of a packed payload: the list's, then zeros (R98). -/
theorem packPayload_byte (bs : List Byte) {i : Nat} (hi : i < 32) :
    (packPayload bs).extractLsb' (8 * i) 8 = bs.getD i 0 := by
  apply BitVec.eq_of_toNat_eq
  rw [packPayload, BitVec.extractLsb'_toNat, BitVec.toNat_ofNat, Nat.shiftRight_eq_div_pow,
    ← leNat_byte]
  have h256 : 2 ^ 256 = 2 ^ (8 * i) * 2 ^ (256 - 8 * i) := by
    rw [← Nat.pow_add]
    congr 1
    omega
  have h8 : 2 ^ (256 - 8 * i) = 2 ^ 8 * 2 ^ (248 - 8 * i) := by
    rw [← Nat.pow_add]
    congr 1
    omega
  rw [h256, Nat.mod_mul_right_div_self, h8, Nat.mod_mul_right_mod]
  rfl

namespace Machine

/-- `PayRead` as a number (R11). -/
theorem payRead_toNat (pay : List Byte) (off w : Nat) :
    (payRead pay off w).toNat = leNat ((pay.drop off).take w) := by
  rw [payRead, BitVec.toNat_ofNat, Nat.mod_eq_of_lt]
  refine lt_of_lt_of_le (leNat_lt _) (Nat.pow_le_pow_right (by decide) ?_)
  simp

/-- A read depends only on the bytes it covers (R67). -/
theorem payRead_take (pay : List Byte) {off w n : Nat} (h : off + w ≤ n) :
    payRead (pay.take n) off w = payRead pay off w := by
  simp only [payRead, List.drop_take, List.take_take]
  rw [min_eq_left (by omega)]

theorem leftover_length (bytes : List Byte) : (leftover bytes).length = bytes.length % 32 := by
  rw [leftover, List.length_drop]
  omega

end Machine

end Sys2Proof
end

