-- ==== Sys2Proof/Laws/State.lean ====
section
/-! SUPPORT. One lemma per field per register update, so that no proof opens a record.

The lemmas are proved by `(rfl)`, in parentheses on purpose: simp then uses them as rewrites and never
hands the kernel a bare definitional equality between states, which it would settle by unfolding the
64-bit arithmetic inside the registers. -/

namespace Sys2Proof.Machine

variable (s : State)

/-! ### setLanes -/

@[simp] theorem setLanes_laneA (a b c d : Word) : (setLanes a b c d s).laneA = a := (rfl)
@[simp] theorem setLanes_laneB (a b c d : Word) : (setLanes a b c d s).laneB = b := (rfl)
@[simp] theorem setLanes_laneC (a b c d : Word) : (setLanes a b c d s).laneC = c := (rfl)
@[simp] theorem setLanes_laneD (a b c d : Word) : (setLanes a b c d s).laneD = d := (rfl)
@[simp] theorem setLanes_len (a b c d : Word) : (setLanes a b c d s).len = s.len := (rfl)
@[simp] theorem setLanes_seed (a b c d : Word) : (setLanes a b c d s).seed = s.seed := (rfl)
@[simp] theorem setLanes_hash (a b c d : Word) : (setLanes a b c d s).hash = s.hash := (rfl)
@[simp] theorem setLanes_ph (a b c d : Word) : (setLanes a b c d s).ph = s.ph := (rfl)
@[simp] theorem setLanes_fcode (a b c d : Word) : (setLanes a b c d s).fcode = s.fcode := (rfl)
@[simp] theorem setLanes_port (a b c d : Word) : (setLanes a b c d s).port = s.port := (rfl)
@[simp] theorem setLanes_presented (a b c d : Word) : (setLanes a b c d s).presented = s.presented := (rfl)
@[simp] theorem setLanes_draws (a b c d : Word) : (setLanes a b c d s).draws = s.draws := (rfl)

/-! ### setLen -/

@[simp] theorem setLen_laneA (v : Word) : (setLen v s).laneA = s.laneA := (rfl)
@[simp] theorem setLen_laneB (v : Word) : (setLen v s).laneB = s.laneB := (rfl)
@[simp] theorem setLen_laneC (v : Word) : (setLen v s).laneC = s.laneC := (rfl)
@[simp] theorem setLen_laneD (v : Word) : (setLen v s).laneD = s.laneD := (rfl)
@[simp] theorem setLen_len (v : Word) : (setLen v s).len = v := (rfl)
@[simp] theorem setLen_seed (v : Word) : (setLen v s).seed = s.seed := (rfl)
@[simp] theorem setLen_hash (v : Word) : (setLen v s).hash = s.hash := (rfl)
@[simp] theorem setLen_ph (v : Word) : (setLen v s).ph = s.ph := (rfl)
@[simp] theorem setLen_fcode (v : Word) : (setLen v s).fcode = s.fcode := (rfl)
@[simp] theorem setLen_port (v : Word) : (setLen v s).port = s.port := (rfl)
@[simp] theorem setLen_presented (v : Word) : (setLen v s).presented = s.presented := (rfl)
@[simp] theorem setLen_draws (v : Word) : (setLen v s).draws = s.draws := (rfl)

/-! ### setSeed -/

@[simp] theorem setSeed_laneA (v : Word) : (setSeed v s).laneA = s.laneA := (rfl)
@[simp] theorem setSeed_laneB (v : Word) : (setSeed v s).laneB = s.laneB := (rfl)
@[simp] theorem setSeed_laneC (v : Word) : (setSeed v s).laneC = s.laneC := (rfl)
@[simp] theorem setSeed_laneD (v : Word) : (setSeed v s).laneD = s.laneD := (rfl)
@[simp] theorem setSeed_len (v : Word) : (setSeed v s).len = s.len := (rfl)
@[simp] theorem setSeed_seed (v : Word) : (setSeed v s).seed = v := (rfl)
@[simp] theorem setSeed_hash (v : Word) : (setSeed v s).hash = s.hash := (rfl)
@[simp] theorem setSeed_ph (v : Word) : (setSeed v s).ph = s.ph := (rfl)
@[simp] theorem setSeed_fcode (v : Word) : (setSeed v s).fcode = s.fcode := (rfl)
@[simp] theorem setSeed_port (v : Word) : (setSeed v s).port = s.port := (rfl)
@[simp] theorem setSeed_presented (v : Word) : (setSeed v s).presented = s.presented := (rfl)
@[simp] theorem setSeed_draws (v : Word) : (setSeed v s).draws = s.draws := (rfl)

/-! ### setHash -/

@[simp] theorem setHash_laneA (v : Word) : (setHash v s).laneA = s.laneA := (rfl)
@[simp] theorem setHash_laneB (v : Word) : (setHash v s).laneB = s.laneB := (rfl)
@[simp] theorem setHash_laneC (v : Word) : (setHash v s).laneC = s.laneC := (rfl)
@[simp] theorem setHash_laneD (v : Word) : (setHash v s).laneD = s.laneD := (rfl)
@[simp] theorem setHash_len (v : Word) : (setHash v s).len = s.len := (rfl)
@[simp] theorem setHash_seed (v : Word) : (setHash v s).seed = s.seed := (rfl)
@[simp] theorem setHash_hash (v : Word) : (setHash v s).hash = v := (rfl)
@[simp] theorem setHash_ph (v : Word) : (setHash v s).ph = s.ph := (rfl)
@[simp] theorem setHash_fcode (v : Word) : (setHash v s).fcode = s.fcode := (rfl)
@[simp] theorem setHash_port (v : Word) : (setHash v s).port = s.port := (rfl)
@[simp] theorem setHash_presented (v : Word) : (setHash v s).presented = s.presented := (rfl)
@[simp] theorem setHash_draws (v : Word) : (setHash v s).draws = s.draws := (rfl)

/-! ### setPhase -/

@[simp] theorem setPhase_laneA (p : Phase) : (setPhase p s).laneA = s.laneA := (rfl)
@[simp] theorem setPhase_laneB (p : Phase) : (setPhase p s).laneB = s.laneB := (rfl)
@[simp] theorem setPhase_laneC (p : Phase) : (setPhase p s).laneC = s.laneC := (rfl)
@[simp] theorem setPhase_laneD (p : Phase) : (setPhase p s).laneD = s.laneD := (rfl)
@[simp] theorem setPhase_len (p : Phase) : (setPhase p s).len = s.len := (rfl)
@[simp] theorem setPhase_seed (p : Phase) : (setPhase p s).seed = s.seed := (rfl)
@[simp] theorem setPhase_hash (p : Phase) : (setPhase p s).hash = s.hash := (rfl)
@[simp] theorem setPhase_ph (p : Phase) : (setPhase p s).ph = p := (rfl)
@[simp] theorem setPhase_fcode (p : Phase) : (setPhase p s).fcode = s.fcode := (rfl)
@[simp] theorem setPhase_port (p : Phase) : (setPhase p s).port = s.port := (rfl)
@[simp] theorem setPhase_presented (p : Phase) : (setPhase p s).presented = s.presented := (rfl)
@[simp] theorem setPhase_draws (p : Phase) : (setPhase p s).draws = s.draws := (rfl)

/-! ### setFcode -/

@[simp] theorem setFcode_laneA (k : FaultCode) : (setFcode k s).laneA = s.laneA := (rfl)
@[simp] theorem setFcode_laneB (k : FaultCode) : (setFcode k s).laneB = s.laneB := (rfl)
@[simp] theorem setFcode_laneC (k : FaultCode) : (setFcode k s).laneC = s.laneC := (rfl)
@[simp] theorem setFcode_laneD (k : FaultCode) : (setFcode k s).laneD = s.laneD := (rfl)
@[simp] theorem setFcode_len (k : FaultCode) : (setFcode k s).len = s.len := (rfl)
@[simp] theorem setFcode_seed (k : FaultCode) : (setFcode k s).seed = s.seed := (rfl)
@[simp] theorem setFcode_hash (k : FaultCode) : (setFcode k s).hash = s.hash := (rfl)
@[simp] theorem setFcode_ph (k : FaultCode) : (setFcode k s).ph = s.ph := (rfl)
@[simp] theorem setFcode_fcode (k : FaultCode) : (setFcode k s).fcode = k := (rfl)
@[simp] theorem setFcode_port (k : FaultCode) : (setFcode k s).port = s.port := (rfl)
@[simp] theorem setFcode_presented (k : FaultCode) : (setFcode k s).presented = s.presented := (rfl)
@[simp] theorem setFcode_draws (k : FaultCode) : (setFcode k s).draws = s.draws := (rfl)

/-! ### setPort -/

@[simp] theorem setPort_laneA (es : List PortEdge) : (setPort es s).laneA = s.laneA := (rfl)
@[simp] theorem setPort_laneB (es : List PortEdge) : (setPort es s).laneB = s.laneB := (rfl)
@[simp] theorem setPort_laneC (es : List PortEdge) : (setPort es s).laneC = s.laneC := (rfl)
@[simp] theorem setPort_laneD (es : List PortEdge) : (setPort es s).laneD = s.laneD := (rfl)
@[simp] theorem setPort_len (es : List PortEdge) : (setPort es s).len = s.len := (rfl)
@[simp] theorem setPort_seed (es : List PortEdge) : (setPort es s).seed = s.seed := (rfl)
@[simp] theorem setPort_hash (es : List PortEdge) : (setPort es s).hash = s.hash := (rfl)
@[simp] theorem setPort_ph (es : List PortEdge) : (setPort es s).ph = s.ph := (rfl)
@[simp] theorem setPort_fcode (es : List PortEdge) : (setPort es s).fcode = s.fcode := (rfl)
@[simp] theorem setPort_port (es : List PortEdge) : (setPort es s).port = es := (rfl)
@[simp] theorem setPort_presented (es : List PortEdge) : (setPort es s).presented = s.presented := (rfl)
@[simp] theorem setPort_draws (es : List PortEdge) : (setPort es s).draws = s.draws := (rfl)

/-! ### setPresented -/

@[simp] theorem setPresented_laneA (p : Presented) : (setPresented p s).laneA = s.laneA := (rfl)
@[simp] theorem setPresented_laneB (p : Presented) : (setPresented p s).laneB = s.laneB := (rfl)
@[simp] theorem setPresented_laneC (p : Presented) : (setPresented p s).laneC = s.laneC := (rfl)
@[simp] theorem setPresented_laneD (p : Presented) : (setPresented p s).laneD = s.laneD := (rfl)
@[simp] theorem setPresented_len (p : Presented) : (setPresented p s).len = s.len := (rfl)
@[simp] theorem setPresented_seed (p : Presented) : (setPresented p s).seed = s.seed := (rfl)
@[simp] theorem setPresented_hash (p : Presented) : (setPresented p s).hash = s.hash := (rfl)
@[simp] theorem setPresented_ph (p : Presented) : (setPresented p s).ph = s.ph := (rfl)
@[simp] theorem setPresented_fcode (p : Presented) : (setPresented p s).fcode = s.fcode := (rfl)
@[simp] theorem setPresented_port (p : Presented) : (setPresented p s).port = s.port := (rfl)
@[simp] theorem setPresented_presented (p : Presented) : (setPresented p s).presented = p := (rfl)
@[simp] theorem setPresented_draws (p : Presented) : (setPresented p s).draws = s.draws := (rfl)

/-! ### countDraw -/

@[simp] theorem countDraw_laneA : (countDraw s).laneA = s.laneA := (rfl)
@[simp] theorem countDraw_laneB : (countDraw s).laneB = s.laneB := (rfl)
@[simp] theorem countDraw_laneC : (countDraw s).laneC = s.laneC := (rfl)
@[simp] theorem countDraw_laneD : (countDraw s).laneD = s.laneD := (rfl)
@[simp] theorem countDraw_len : (countDraw s).len = s.len := (rfl)
@[simp] theorem countDraw_seed : (countDraw s).seed = s.seed := (rfl)
@[simp] theorem countDraw_hash : (countDraw s).hash = s.hash := (rfl)
@[simp] theorem countDraw_ph : (countDraw s).ph = s.ph := (rfl)
@[simp] theorem countDraw_fcode : (countDraw s).fcode = s.fcode := (rfl)
@[simp] theorem countDraw_port : (countDraw s).port = s.port := (rfl)
@[simp] theorem countDraw_presented : (countDraw s).presented = s.presented := (rfl)
@[simp] theorem countDraw_draws : (countDraw s).draws = s.draws + 1 := (rfl)

/-! ### enterFault -/

@[simp] theorem enterFault_laneA (k : FaultCode) : (enterFault k s).laneA = s.laneA := (rfl)
@[simp] theorem enterFault_laneB (k : FaultCode) : (enterFault k s).laneB = s.laneB := (rfl)
@[simp] theorem enterFault_laneC (k : FaultCode) : (enterFault k s).laneC = s.laneC := (rfl)
@[simp] theorem enterFault_laneD (k : FaultCode) : (enterFault k s).laneD = s.laneD := (rfl)
@[simp] theorem enterFault_len (k : FaultCode) : (enterFault k s).len = s.len := (rfl)
@[simp] theorem enterFault_seed (k : FaultCode) : (enterFault k s).seed = s.seed := (rfl)
@[simp] theorem enterFault_hash (k : FaultCode) : (enterFault k s).hash = s.hash := (rfl)
@[simp] theorem enterFault_ph (k : FaultCode) : (enterFault k s).ph = .fault := (rfl)
@[simp] theorem enterFault_fcode (k : FaultCode) : (enterFault k s).fcode = k := (rfl)
@[simp] theorem enterFault_port (k : FaultCode) : (enterFault k s).port = s.port := (rfl)
@[simp] theorem enterFault_presented (k : FaultCode) : (enterFault k s).presented = s.presented := (rfl)
@[simp] theorem enterFault_draws (k : FaultCode) : (enterFault k s).draws = s.draws := (rfl)

/-! ### resetRegisters -/

@[simp] theorem resetRegisters_laneA : (resetRegisters s).laneA = Config.afterReset .a s.draws := (rfl)
@[simp] theorem resetRegisters_laneB : (resetRegisters s).laneB = Config.afterReset .b s.draws := (rfl)
@[simp] theorem resetRegisters_laneC : (resetRegisters s).laneC = Config.afterReset .c s.draws := (rfl)
@[simp] theorem resetRegisters_laneD : (resetRegisters s).laneD = Config.afterReset .d s.draws := (rfl)
@[simp] theorem resetRegisters_len : (resetRegisters s).len = Config.afterReset .len s.draws := (rfl)
@[simp] theorem resetRegisters_seed : (resetRegisters s).seed = Config.afterReset .seed s.draws := (rfl)
@[simp] theorem resetRegisters_hash : (resetRegisters s).hash = Config.afterReset .hash s.draws := (rfl)
@[simp] theorem resetRegisters_ph : (resetRegisters s).ph = .idle := (rfl)
@[simp] theorem resetRegisters_fcode : (resetRegisters s).fcode = .noFault := (rfl)
@[simp] theorem resetRegisters_port : (resetRegisters s).port = s.port := (rfl)
@[simp] theorem resetRegisters_presented : (resetRegisters s).presented = s.presented := (rfl)
@[simp] theorem resetRegisters_draws : (resetRegisters s).draws = s.draws + 1 := (rfl)

/-! ### The effects of the three commands -/

@[simp] theorem initEffect_laneA (seed : Word) :
    (initEffect seed s).laneA = seed + prime1 + prime2 := by simp [initEffect]
@[simp] theorem initEffect_laneB (seed : Word) : (initEffect seed s).laneB = seed + prime2 := by simp [initEffect]
@[simp] theorem initEffect_laneC (seed : Word) : (initEffect seed s).laneC = seed := by simp [initEffect]
@[simp] theorem initEffect_laneD (seed : Word) : (initEffect seed s).laneD = seed - prime1 := by simp [initEffect]
@[simp] theorem initEffect_len (seed : Word) : (initEffect seed s).len = 0 := by simp [initEffect]
@[simp] theorem initEffect_seed (seed : Word) : (initEffect seed s).seed = seed := by simp [initEffect]
@[simp] theorem initEffect_hash (seed : Word) : (initEffect seed s).hash = s.hash := by simp [initEffect]
@[simp] theorem initEffect_ph (seed : Word) : (initEffect seed s).ph = .absorb := by simp [initEffect]
@[simp] theorem initEffect_fcode (seed : Word) : (initEffect seed s).fcode = s.fcode := by simp [initEffect]
@[simp] theorem initEffect_port (seed : Word) : (initEffect seed s).port = s.port := by simp [initEffect]
@[simp] theorem initEffect_presented (seed : Word) : (initEffect seed s).presented = s.presented := by simp [initEffect]
@[simp] theorem initEffect_draws (seed : Word) : (initEffect seed s).draws = s.draws := by simp [initEffect]

@[simp] theorem groupEffect_laneA (l0 l1 l2 l3 : Word) :
    (groupEffect l0 l1 l2 l3 s).laneA = laneRound s.laneA l0 := by simp [groupEffect]
@[simp] theorem groupEffect_laneB (l0 l1 l2 l3 : Word) :
    (groupEffect l0 l1 l2 l3 s).laneB = laneRound s.laneB l1 := by simp [groupEffect]
@[simp] theorem groupEffect_laneC (l0 l1 l2 l3 : Word) :
    (groupEffect l0 l1 l2 l3 s).laneC = laneRound s.laneC l2 := by simp [groupEffect]
@[simp] theorem groupEffect_laneD (l0 l1 l2 l3 : Word) :
    (groupEffect l0 l1 l2 l3 s).laneD = laneRound s.laneD l3 := by simp [groupEffect]
@[simp] theorem groupEffect_len (l0 l1 l2 l3 : Word) :
    (groupEffect l0 l1 l2 l3 s).len = s.len + 32 := by simp [groupEffect]
@[simp] theorem groupEffect_seed (l0 l1 l2 l3 : Word) :
    (groupEffect l0 l1 l2 l3 s).seed = s.seed := by simp [groupEffect]
@[simp] theorem groupEffect_hash (l0 l1 l2 l3 : Word) :
    (groupEffect l0 l1 l2 l3 s).hash = s.hash := by simp [groupEffect]
@[simp] theorem groupEffect_ph (l0 l1 l2 l3 : Word) : (groupEffect l0 l1 l2 l3 s).ph = s.ph := by simp [groupEffect]
@[simp] theorem groupEffect_fcode (l0 l1 l2 l3 : Word) :
    (groupEffect l0 l1 l2 l3 s).fcode = s.fcode := by simp [groupEffect]
@[simp] theorem groupEffect_port (l0 l1 l2 l3 : Word) :
    (groupEffect l0 l1 l2 l3 s).port = s.port := by simp [groupEffect]
@[simp] theorem groupEffect_presented (l0 l1 l2 l3 : Word) :
    (groupEffect l0 l1 l2 l3 s).presented = s.presented := by simp [groupEffect]
@[simp] theorem groupEffect_draws (l0 l1 l2 l3 : Word) :
    (groupEffect l0 l1 l2 l3 s).draws = s.draws := by simp [groupEffect]

@[simp] theorem finalEffect_laneA (n : Nat) (pay : List Byte) :
    (finalEffect n pay s).laneA = s.laneA := by simp [finalEffect]
@[simp] theorem finalEffect_laneB (n : Nat) (pay : List Byte) :
    (finalEffect n pay s).laneB = s.laneB := by simp [finalEffect]
@[simp] theorem finalEffect_laneC (n : Nat) (pay : List Byte) :
    (finalEffect n pay s).laneC = s.laneC := by simp [finalEffect]
@[simp] theorem finalEffect_laneD (n : Nat) (pay : List Byte) :
    (finalEffect n pay s).laneD = s.laneD := by simp [finalEffect]
@[simp] theorem finalEffect_len (n : Nat) (pay : List Byte) :
    (finalEffect n pay s).len = s.len + BitVec.ofNat 64 n := by simp [finalEffect]
@[simp] theorem finalEffect_seed (n : Nat) (pay : List Byte) :
    (finalEffect n pay s).seed = s.seed := by simp [finalEffect]
@[simp] theorem finalEffect_hash (n : Nat) (pay : List Byte) :
    (finalEffect n pay s).hash = finalHash n pay (s.len + BitVec.ofNat 64 n) s := by simp [finalEffect]
@[simp] theorem finalEffect_ph (n : Nat) (pay : List Byte) : (finalEffect n pay s).ph = .done := by simp [finalEffect]
@[simp] theorem finalEffect_fcode (n : Nat) (pay : List Byte) :
    (finalEffect n pay s).fcode = s.fcode := by simp [finalEffect]
@[simp] theorem finalEffect_port (n : Nat) (pay : List Byte) :
    (finalEffect n pay s).port = s.port := by simp [finalEffect]
@[simp] theorem finalEffect_presented (n : Nat) (pay : List Byte) :
    (finalEffect n pay s).presented = s.presented := by simp [finalEffect]
@[simp] theorem finalEffect_draws (n : Nat) (pay : List Byte) :
    (finalEffect n pay s).draws = s.draws := by simp [finalEffect]

/-! ### The updates as records -/

theorem setPort_eq (es : List PortEdge) : setPort es s = { s with port := es } := (rfl)

theorem setPresented_eq (p : Presented) : setPresented p s = { s with presented := p } := (rfl)

theorem enterFault_eq (k : FaultCode) : enterFault k s = { s with ph := .fault, fcode := k } := (rfl)

theorem initEffect_eq (seed : Word) : initEffect seed s =
    { s with
      laneA := seed + prime1 + prime2
      laneB := seed + prime2
      laneC := seed
      laneD := seed - prime1
      len := 0
      seed := seed
      ph := .absorb } := by
  apply State.ext <;> simp

theorem groupEffect_eq (l0 l1 l2 l3 : Word) : groupEffect l0 l1 l2 l3 s =
    { s with
      laneA := laneRound s.laneA l0
      laneB := laneRound s.laneB l1
      laneC := laneRound s.laneC l2
      laneD := laneRound s.laneD l3
      len := s.len + 32 } := by
  apply State.ext <;> simp

theorem finalEffect_eq (n : Nat) (pay : List Byte) : finalEffect n pay s =
    { s with
      hash := finalHash n pay (s.len + BitVec.ofNat 64 n) s
      len := s.len + BitVec.ofNat 64 n
      ph := .done } := by
  apply State.ext <;> simp

/-! ### The ports

Presenting edges touches no register, so every update commutes with it. -/

@[simp] theorem setLanes_setPort (a b c d : Word) (es : List PortEdge) :
    setLanes a b c d (setPort es s) = setPort es (setLanes a b c d s) := (rfl)

@[simp] theorem setLen_setPort (v : Word) (es : List PortEdge) :
    setLen v (setPort es s) = setPort es (setLen v s) := (rfl)

@[simp] theorem setSeed_setPort (v : Word) (es : List PortEdge) :
    setSeed v (setPort es s) = setPort es (setSeed v s) := (rfl)

@[simp] theorem setHash_setPort (v : Word) (es : List PortEdge) :
    setHash v (setPort es s) = setPort es (setHash v s) := (rfl)

@[simp] theorem setPhase_setPort (p : Phase) (es : List PortEdge) :
    setPhase p (setPort es s) = setPort es (setPhase p s) := (rfl)

@[simp] theorem setFcode_setPort (k : FaultCode) (es : List PortEdge) :
    setFcode k (setPort es s) = setPort es (setFcode k s) := (rfl)

@[simp] theorem setPort_setPort (es fs : List PortEdge) :
    setPort es (setPort fs s) = setPort es s := (rfl)

@[simp] theorem setPort_self : setPort s.port s = s := (rfl)

@[simp] theorem resetRegisters_setPort (es : List PortEdge) :
    resetRegisters (setPort es s) = setPort es (resetRegisters s) := (rfl)

@[simp] theorem setPresented_setPort (p : Presented) (es : List PortEdge) :
    setPresented p (setPort es s) = setPort es (setPresented p s) := (rfl)

@[simp] theorem countDraw_setPort (es : List PortEdge) :
    countDraw (setPort es s) = setPort es (countDraw s) := (rfl)

@[simp] theorem setPresented_setPresented (p q : Presented) :
    setPresented p (setPresented q s) = setPresented p s := (rfl)

@[simp] theorem setPresented_self : setPresented s.presented s = s := (rfl)

@[simp] theorem enterFault_setPort (k : FaultCode) (es : List PortEdge) :
    enterFault k (setPort es s) = setPort es (enterFault k s) := (rfl)

@[simp] theorem initEffect_setPort (seed : Word) (es : List PortEdge) :
    initEffect seed (setPort es s) = setPort es (initEffect seed s) := by simp [initEffect]

@[simp] theorem groupEffect_setPort (l0 l1 l2 l3 : Word) (es : List PortEdge) :
    groupEffect l0 l1 l2 l3 (setPort es s) = setPort es (groupEffect l0 l1 l2 l3 s) := by
  simp [groupEffect]

@[simp] theorem finalStart_setPort (len1 : Word) (es : List PortEdge) :
    finalStart len1 (setPort es s) = finalStart len1 s := by simp [finalStart]

@[simp] theorem finalHash_setPort (n : Nat) (pay : List Byte) (len1 : Word) (es : List PortEdge) :
    finalHash n pay len1 (setPort es s) = finalHash n pay len1 s := by simp [finalHash]

@[simp] theorem finalEffect_setPort (n : Nat) (pay : List Byte) (es : List PortEdge) :
    finalEffect n pay (setPort es s) = setPort es (finalEffect n pay s) := by
  simp [finalEffect]

/-! The same of what is presented. -/

@[simp] theorem setLanes_setPresented (a b c d : Word) (p : Presented) :
    setLanes a b c d (setPresented p s) = setPresented p (setLanes a b c d s) := (rfl)

@[simp] theorem setLen_setPresented (v : Word) (p : Presented) :
    setLen v (setPresented p s) = setPresented p (setLen v s) := (rfl)

@[simp] theorem setSeed_setPresented (v : Word) (p : Presented) :
    setSeed v (setPresented p s) = setPresented p (setSeed v s) := (rfl)

@[simp] theorem setHash_setPresented (v : Word) (p : Presented) :
    setHash v (setPresented p s) = setPresented p (setHash v s) := (rfl)

@[simp] theorem setPhase_setPresented (q : Phase) (p : Presented) :
    setPhase q (setPresented p s) = setPresented p (setPhase q s) := (rfl)

@[simp] theorem setFcode_setPresented (k : FaultCode) (p : Presented) :
    setFcode k (setPresented p s) = setPresented p (setFcode k s) := (rfl)

@[simp] theorem resetRegisters_setPresented (p : Presented) :
    resetRegisters (setPresented p s) = setPresented p (resetRegisters s) := (rfl)

@[simp] theorem enterFault_setPresented (k : FaultCode) (p : Presented) :
    enterFault k (setPresented p s) = setPresented p (enterFault k s) := (rfl)

@[simp] theorem initEffect_setPresented (seed : Word) (p : Presented) :
    initEffect seed (setPresented p s) = setPresented p (initEffect seed s) := by simp [initEffect]

@[simp] theorem groupEffect_setPresented (l0 l1 l2 l3 : Word) (p : Presented) :
    groupEffect l0 l1 l2 l3 (setPresented p s) = setPresented p (groupEffect l0 l1 l2 l3 s) := by
  simp [groupEffect]

@[simp] theorem finalStart_setPresented (len1 : Word) (p : Presented) :
    finalStart len1 (setPresented p s) = finalStart len1 s := by simp [finalStart]

@[simp] theorem finalHash_setPresented (n : Nat) (pay : List Byte) (len1 : Word) (p : Presented) :
    finalHash n pay len1 (setPresented p s) = finalHash n pay len1 s := by simp [finalHash]

@[simp] theorem finalEffect_setPresented (n : Nat) (pay : List Byte) (p : Presented) :
    finalEffect n pay (setPresented p s) = setPresented p (finalEffect n pay s) := by
  simp [finalEffect]

end Sys2Proof.Machine
end

