-- ==== Sys2Proof/Laws/Ops.lean ====
section
/-! SUPPORT. For each shared operation, once, everything it can do: the phase checks, an accepted
command word, a clock edge and the step. Proofs cite these and open none of the definitions. -/

namespace Sys2Proof.Machine

/-! ## The phase checks -/

/-- In a phase that executes INIT, `unlessFault` has its effect. -/
theorem unlessFault_of_ne (f : State → State) {s : State} (h : s.ph ≠ .fault) :
    unlessFault f s = .next (f s) := by
  unfold unlessFault
  cases hp : s.ph <;> simp_all

/-- In FAULT it drops the command. -/
theorem unlessFault_of_fault (f : State → State) {s : State} (h : s.ph = .fault) :
    unlessFault f s = .next s := by
  simp [unlessFault, h]

/-- In ABSORB `whenAbsorbing` has its effect. -/
theorem whenAbsorbing_of_absorb (f : State → State) {s : State} (h : s.ph = .absorb) :
    whenAbsorbing f s = .next (f s) := by
  simp [whenAbsorbing, h]

/-- In IDLE and DONE it raises SEQUENCE. -/
theorem whenAbsorbing_of_idle_or_done (f : State → State) {s : State}
    (h : s.ph = .idle ∨ s.ph = .done) : whenAbsorbing f s = .next (enterFault .sequence s) := by
  rcases h with h | h <;> simp [whenAbsorbing, h]

/-- In FAULT it drops the command. -/
theorem whenAbsorbing_of_fault (f : State → State) {s : State} (h : s.ph = .fault) :
    whenAbsorbing f s = .next s := by
  simp [whenAbsorbing, h]

/-! ## One command -/

/-- Everything `exec` can do with a command: drop it in FAULT, execute it, or raise SEQUENCE for a
GROUP or FINAL in IDLE or DONE. -/
theorem exec_cases (i : Instr) (s : State) :
    (s.ph = .fault ∧ exec i s = .next s) ∨
    (s.ph ≠ .fault ∧ ∃ seed, i = .init seed ∧ exec i s = .next (initEffect seed s)) ∨
    (s.ph = .absorb ∧ ∃ l0 l1 l2 l3, i = .group l0 l1 l2 l3 ∧
      exec i s = .next (groupEffect l0 l1 l2 l3 s)) ∨
    (s.ph = .absorb ∧ ∃ n tail, i = .final n tail ∧ exec i s = .next (finalEffect n.val tail s)) ∨
    ((s.ph = .idle ∨ s.ph = .done) ∧ (∀ seed, i ≠ .init seed) ∧
      exec i s = .next (enterFault .sequence s)) := by
  rcases i with seed | ⟨l0, l1, l2, l3⟩ | ⟨n, tail⟩ <;>
    cases hp : s.ph <;>
      simp [exec, execInit, execGroup, execFinal, unlessFault, whenAbsorbing, hp]

/-- `exec` answers a next state for every command in every state. -/
theorem exec_next (i : Instr) (s : State) : ∃ t, exec i s = .next t := by
  rcases exec_cases i s with h | ⟨-, _, -, h⟩ | ⟨-, _, _, _, _, -, h⟩ | ⟨-, _, _, -, h⟩ | h
  exacts [⟨_, h.2⟩, ⟨_, h⟩, ⟨_, h⟩, ⟨_, h⟩, ⟨_, h.2.2⟩]

/-- The same by the state answered: everything a command may leave behind. -/
theorem exec_inv {i : Instr} {s t : State} (h : exec i s = .next t) :
    (s.ph = .fault ∧ t = s) ∨
    (s.ph ≠ .fault ∧ ∃ seed, i = .init seed ∧ t = initEffect seed s) ∨
    (s.ph = .absorb ∧ ∃ l0 l1 l2 l3, i = .group l0 l1 l2 l3 ∧ t = groupEffect l0 l1 l2 l3 s) ∨
    (s.ph = .absorb ∧ ∃ n tail, i = .final n tail ∧ t = finalEffect n.val tail s) ∨
    ((s.ph = .idle ∨ s.ph = .done) ∧ (∀ seed, i ≠ .init seed) ∧ t = enterFault .sequence s) := by
  have back {u : State} (he : exec i s = .next u) : t = u :=
    Host.Outcome.next.inj (h.symm.trans he)
  rcases exec_cases i s with ⟨hp, he⟩ | ⟨hp, seed, hi, he⟩ | ⟨hp, l0, l1, l2, l3, hi, he⟩ |
    ⟨hp, n, tail, hi, he⟩ | ⟨hp, hi, he⟩
  · exact .inl ⟨hp, back he⟩
  · exact .inr (.inl ⟨hp, seed, hi, back he⟩)
  · exact .inr (.inr (.inl ⟨hp, l0, l1, l2, l3, hi, back he⟩))
  · exact .inr (.inr (.inr (.inl ⟨hp, n, tail, hi, back he⟩)))
  · exact .inr (.inr (.inr (.inr ⟨hp, hi, back he⟩)))

/-- A command's meaning does not read what is still to come at the ports, and keeps it. -/
theorem exec_setPort (i : Instr) (es : List PortEdge) {s t : State} (h : exec i s = .next t) :
    exec i (setPort es s) = .next (setPort es t) := by
  rcases i with seed | ⟨l0, l1, l2, l3⟩ | ⟨n, tail⟩ <;>
    cases hp : s.ph <;>
      simp only [exec, execInit, execGroup, execFinal, unlessFault, whenAbsorbing, hp,
        setPort_ph, initEffect_setPort, groupEffect_setPort, finalEffect_setPort,
        enterFault_setPort, Host.Outcome.next.injEq] at h ⊢ <;> rw [h]

/-- A command's meaning does not read what is presented, and keeps it. -/
theorem exec_setPresented (i : Instr) (p : Presented) {s t : State} (h : exec i s = .next t) :
    exec i (setPresented p s) = .next (setPresented p t) := by
  rcases i with seed | ⟨l0, l1, l2, l3⟩ | ⟨n, tail⟩ <;>
    cases hp : s.ph <;>
      simp only [exec, execInit, execGroup, execFinal, unlessFault, whenAbsorbing, hp,
        setPresented_ph, initEffect_setPresented, groupEffect_setPresented, finalEffect_setPresented,
        enterFault_setPresented, Host.Outcome.next.injEq] at h ⊢ <;> rw [h]

/-! ## The word presented -/

/-- A steady word is the word at the edge. -/
theorem Presented.eq_of_hold {p : Presented} {e : PortEdge} {w : Cmd} (h : p.hold e = .steady w) :
    w = e.cmd := by
  unfold Presented.hold at h
  split at h
  · cases p with
    | nothing => exact (Presented.steady.inj h).symm
    | changed => exact Presented.noConfusion h
    | steady v =>
      simp only at h
      split at h
      · next hv => exact (Presented.steady.inj h).symm.trans hv
      · exact Presented.noConfusion h
  · exact Presented.noConfusion h

/-- Where nothing is presented at an edge, nothing waits after it. -/
@[simp] theorem Presented.hold_of_not_valid (p : Presented) {e : PortEdge} (h : e.cmdValid = false) :
    p.hold e = .nothing := by
  simp [Presented.hold, h]

/-- A word that is new at the edge, or the one presented before, is no changed word. -/
theorem Presented.hold_ne_changed {p : Presented} {e : PortEdge}
    (h : p = .nothing ∨ p = .steady e.cmd) : p.hold e ≠ .changed := by
  unfold Presented.hold
  rcases h with h | h <;> cases e.cmdValid <;> simp [h]

@[simp] theorem acceptedWord_setPort (e : PortEdge) (es : List PortEdge) (s : State) :
    acceptedWord e (setPort es s) = acceptedWord e s := by
  simp [acceptedWord]

/-- Everything accepting the word of an edge can do: take the word there, or draw one. -/
theorem endPresentation_cases (e : PortEdge) (s : State) :
    (s.presented.hold e ≠ .changed ∧ acceptedWord e s = e.cmd ∧
      endPresentation e s = setPresented .nothing s) ∨
    (s.presented.hold e = .changed ∧ acceptedWord e s = Config.changedWord s.draws ∧
      endPresentation e s = countDraw (setPresented .nothing s)) := by
  unfold acceptedWord endPresentation
  cases s.presented.hold e <;> simp

/-- A word held since it was presented is the word accepted. -/
theorem acceptedWord_of_steady {e : PortEdge} {s : State}
    (h : s.presented = .nothing ∨ s.presented = .steady e.cmd) :
    acceptedWord e s = e.cmd ∧ endPresentation e s = setPresented .nothing s := by
  rcases endPresentation_cases e s with hc | hc
  · exact hc.2
  · exact absurd hc.1 (Presented.hold_ne_changed h)

/-- A word changed while presented is not accepted: a free value is. -/
theorem acceptedWord_of_changed {e : PortEdge} {s : State} (h : s.presented.hold e = .changed) :
    acceptedWord e s = Config.changedWord s.draws ∧
      endPresentation e s = countDraw (setPresented .nothing s) := by
  rcases endPresentation_cases e s with hc | hc
  · exact absurd h hc.1
  · exact hc.2

section
variable (e : PortEdge) (s : State)

@[simp] theorem endPresentation_laneA : (endPresentation e s).laneA = s.laneA := by
  rcases endPresentation_cases e s with h | h <;> simp [h]
@[simp] theorem endPresentation_laneB : (endPresentation e s).laneB = s.laneB := by
  rcases endPresentation_cases e s with h | h <;> simp [h]
@[simp] theorem endPresentation_laneC : (endPresentation e s).laneC = s.laneC := by
  rcases endPresentation_cases e s with h | h <;> simp [h]
@[simp] theorem endPresentation_laneD : (endPresentation e s).laneD = s.laneD := by
  rcases endPresentation_cases e s with h | h <;> simp [h]
@[simp] theorem endPresentation_len : (endPresentation e s).len = s.len := by
  rcases endPresentation_cases e s with h | h <;> simp [h]
@[simp] theorem endPresentation_seed : (endPresentation e s).seed = s.seed := by
  rcases endPresentation_cases e s with h | h <;> simp [h]
@[simp] theorem endPresentation_hash : (endPresentation e s).hash = s.hash := by
  rcases endPresentation_cases e s with h | h <;> simp [h]
@[simp] theorem endPresentation_ph : (endPresentation e s).ph = s.ph := by
  rcases endPresentation_cases e s with h | h <;> simp [h]
@[simp] theorem endPresentation_fcode : (endPresentation e s).fcode = s.fcode := by
  rcases endPresentation_cases e s with h | h <;> simp [h]
@[simp] theorem endPresentation_port : (endPresentation e s).port = s.port := by
  rcases endPresentation_cases e s with h | h <;> simp [h]
@[simp] theorem endPresentation_presented : (endPresentation e s).presented = .nothing := by
  rcases endPresentation_cases e s with h | h <;> simp [h]
theorem endPresentation_draws : (endPresentation e s).draws =
    if s.presented.hold e = .changed then s.draws + 1 else s.draws := by
  rcases endPresentation_cases e s with h | h <;> simp [h]
@[simp] theorem endPresentation_setPort (es : List PortEdge) :
    endPresentation e (setPort es s) = setPort es (endPresentation e s) := by
  unfold endPresentation
  simp only [setPort_presented, setPresented_setPort, countDraw_setPort]
  cases s.presented.hold e <;> rfl

end

/-- Accepting a word touches no register. -/
theorem endPresentation_eq (e : PortEdge) (s : State) : endPresentation e s =
    { s with presented := .nothing, draws := (endPresentation e s).draws } := by
  apply State.ext <;> simp

/-- A command leaves the model's own fields as they are. -/
theorem exec_own_fields {i : Instr} {s t : State} (h : exec i s = .next t) :
    t.port = s.port ∧ t.presented = s.presented ∧ t.draws = s.draws := by
  rcases exec_inv h with ⟨-, e⟩ | ⟨-, _, -, e⟩ | ⟨-, _, _, _, _, -, e⟩ | ⟨-, _, _, -, e⟩ | ⟨-, -, e⟩ <;>
    rw [e] <;> simp

/-! ## One clock edge -/

/-- In FAULT every accepted word is dropped (R206). -/
theorem acceptCommand_of_fault (cmd : Cmd) {s : State} (h : s.ph = .fault) :
    acceptCommand cmd s = .next s := by
  simp [acceptCommand, h]

/-- A reserved word raises RESERVED_CMD in every other phase (R201). -/
theorem acceptCommand_of_reserved {cmd : Cmd} {r : Reserved} {s : State}
    (hd : decode cmd = .error r) (h : s.ph ≠ .fault) :
    acceptCommand cmd s = .next (enterFault .reservedCmd s) := by
  unfold acceptCommand
  cases hp : s.ph <;> simp_all

/-- A word that decodes runs its command, in every phase: in FAULT the command too does nothing. -/
theorem acceptCommand_of_decode {cmd : Cmd} {i : Instr} (s : State) (hd : decode cmd = .ok i) :
    acceptCommand cmd s = exec i s := by
  unfold acceptCommand
  rcases exec_cases i s with ⟨hp, he⟩ | ⟨hp, -⟩ | ⟨hp, -⟩ | ⟨hp, -⟩ | ⟨hp | hp, -⟩
  · simp [hp, he]
  · cases hq : s.ph <;> simp_all
  all_goals simp [hp, hd]

/-- Everything an edge can do (R205). -/
theorem clockEdge_cases (e : PortEdge) (s : State) :
    (e.rst = true ∧
      clockEdge e s = .next (resetRegisters (setPresented (s.presented.hold e) s))) ∨
    (e.rst = false ∧ e.accepts = false ∧
      clockEdge e s = .next (setPresented (s.presented.hold e) s)) ∨
    (e.accepts = true ∧
      clockEdge e s = acceptCommand (acceptedWord e s) (endPresentation e s)) := by
  unfold clockEdge PortEdge.accepts
  cases e.rst <;> cases e.cmdValid <;> cases e.cmdReady <;> simp

/-- Everything an accepted word can do (R205, R206). -/
theorem acceptCommand_cases (cmd : Cmd) (s : State) :
    (s.ph = .fault ∧ acceptCommand cmd s = .next s) ∨
    (s.ph ≠ .fault ∧ (∃ r, decode cmd = .error r) ∧
      acceptCommand cmd s = .next (enterFault .reservedCmd s)) ∨
    (s.ph ≠ .fault ∧ ∃ i, decode cmd = .ok i ∧ acceptCommand cmd s = exec i s) := by
  by_cases hp : s.ph = .fault
  · exact .inl ⟨hp, acceptCommand_of_fault cmd hp⟩
  · cases hd : decode cmd with
    | error r => exact .inr (.inl ⟨hp, ⟨r, rfl⟩, acceptCommand_of_reserved hd hp⟩)
    | ok i => exact .inr (.inr ⟨hp, i, rfl, acceptCommand_of_decode s hd⟩)

/-- An edge always answers a next state. -/
theorem clockEdge_next (e : PortEdge) (s : State) : ∃ t, clockEdge e s = .next t := by
  rcases clockEdge_cases e s with h | h | ⟨-, h⟩
  · exact ⟨_, h.2⟩
  · exact ⟨_, h.2.2⟩
  · rcases acceptCommand_cases (acceptedWord e s) (endPresentation e s) with h' | h' | ⟨-, i, -, h'⟩
    · exact ⟨_, h.trans h'.2⟩
    · exact ⟨_, h.trans h'.2.2⟩
    · rw [h, h']
      exact exec_next i _

/-! ## The step -/

/-- Nothing pending at the ports: no register changes, and nothing is presented. -/
theorem step_of_nil {s : State} (h : s.port = []) : step s = .next (setPresented .nothing s) := by
  simp [step, advance, h, clockEdge, idleEdge, PortEdge.accepts]

/-- The next edge is taken off the ports and acts. -/
theorem step_of_cons {s : State} {e : PortEdge} {rest : List PortEdge} (h : s.port = e :: rest) :
    step s = clockEdge e (setPort rest s) := by
  simp [step, advance, h]

/-- A step always answers a next state. -/
theorem step_next (s : State) : ∃ t, step s = .next t := by
  cases h : s.port with
  | nil => exact ⟨_, step_of_nil h⟩
  | cons e rest =>
    rw [step_of_cons h]
    exact clockEdge_next e _

/-- Everything a step may leave behind: nothing pending; a reset edge; an edge without an accepted
command; and the three outcomes of an accepted word. -/
theorem step_inv {s t : State} (h : step s = .next t) :
    (s.port = [] ∧ t = setPresented .nothing s) ∨
    ∃ e rest, s.port = e :: rest ∧
      ((e.rst = true ∧
         t = resetRegisters (setPresented (s.presented.hold e) (setPort rest s))) ∨
       (e.rst = false ∧ e.accepts = false ∧
         t = setPresented (s.presented.hold e) (setPort rest s)) ∨
       (e.accepts = true ∧ s.ph = .fault ∧ t = endPresentation e (setPort rest s)) ∨
       (e.accepts = true ∧ s.ph ≠ .fault ∧ (∃ r, decode (acceptedWord e s) = .error r) ∧
         t = enterFault .reservedCmd (endPresentation e (setPort rest s))) ∨
       (e.accepts = true ∧ s.ph ≠ .fault ∧ ∃ i, decode (acceptedWord e s) = .ok i ∧
         exec i (endPresentation e (setPort rest s)) = .next t)) := by
  cases hp : s.port with
  | nil => exact .inl ⟨rfl, Host.Outcome.next.inj (h.symm.trans (step_of_nil hp))⟩
  | cons e rest =>
    refine .inr ⟨e, rest, rfl, ?_⟩
    rw [step_of_cons hp] at h
    have back {u : State} (he : clockEdge e (setPort rest s) = .next u) : t = u :=
      Host.Outcome.next.inj (h.symm.trans he)
    rcases clockEdge_cases e (setPort rest s) with ⟨hr, he⟩ | ⟨hr, ha, he⟩ | ⟨ha, he⟩
    · exact .inl ⟨hr, back he⟩
    · exact .inr (.inl ⟨hr, ha, back he⟩)
    · rw [acceptedWord_setPort] at he
      rcases acceptCommand_cases (acceptedWord e s) (endPresentation e (setPort rest s)) with
        ⟨hf, he'⟩ | ⟨hf, hd, he'⟩ | ⟨hf, i, hd, he'⟩
      · exact .inr (.inr (.inl ⟨ha, by simpa using hf, back (he.trans he')⟩))
      · exact .inr (.inr (.inr (.inl ⟨ha, by simpa using hf, hd, back (he.trans he')⟩)))
      · exact .inr (.inr (.inr (.inr ⟨ha, by simpa using hf, i, hd, by rw [← he', ← he, h]⟩)))

end Sys2Proof.Machine
end

