-- ==== Sys2Proof/Laws/PerInstr.lean ====
section
/-! SUPPORT. Facts about every command, one lemma per constructor.

`OpcodeRow`: the header that `encode` writes selects the command's own row of the opcode map
(spec/30_encoding.md R95, R102). -/

namespace Sys2Proof.Laws.OpcodeRow

/-- `mask` of the command's row in spec/opcode_table.json. -/
def mask : Instr → BitVec 8
  | .init _ => 0xFF#8
  | .group _ _ _ _ => 0xFF#8
  | .final _ _ => 0xE0#8

/-- `match` of the command's row in spec/opcode_table.json. -/
def value : Instr → BitVec 8
  | .init _ => 0x20#8
  | .group _ _ _ _ => 0x40#8
  | .final _ _ => 0x60#8

/-- "A command word selects the row when `(header and mask) = match`." -/
def Statement (i : Instr) : Prop := headerOf (encode i) &&& mask i = value i

theorem init (seed : Word) : Statement (.init seed) := by
  simp only [Statement, encode, encodeHeader, mask, value, headerOf_packCmd]
  decide

theorem group (l0 l1 l2 l3 : Word) : Statement (.group l0 l1 l2 l3) := by
  simp only [Statement, encode, encodeHeader, mask, value, headerOf_packCmd]
  decide

theorem final (n : Fin 32) (tail : List Byte) : Statement (.final n tail) := by
  simp only [Statement, encode, encodeHeader, mask, value, headerOf_packCmd]
  revert n
  decide

end Sys2Proof.Laws.OpcodeRow
end

