-- ==== Sys2Proof/Laws/Run.lean ====
section
/-! SUPPORT. Runs, one edge and one command at a time. -/

namespace Sys2Proof.Safety

open Sys2Proof.Machine

/-- A clock edge does not read what is still to come at the ports, and keeps it. -/
theorem clockEdge_setPort (e : PortEdge) (es : List PortEdge) {s t : State}
    (h : clockEdge e s = .next t) : clockEdge e (setPort es s) = .next (setPort es t) := by
  rcases clockEdge_cases e s with ⟨hr, he⟩ | ⟨hr, ha, he⟩ | ⟨ha, he⟩
  · rw [← Host.Outcome.next.inj (he.symm.trans h), ← resetRegisters_setPort]
    simp [clockEdge, hr]
  · rw [← Host.Outcome.next.inj (he.symm.trans h)]
    simp [clockEdge, hr, ha]
  · have hr : e.rst = false := by
      unfold PortEdge.accepts at ha
      cases hq : e.rst <;> simp_all
    rw [he] at h
    simp only [clockEdge, hr, ha, Bool.false_eq_true, if_false, if_true, acceptedWord_setPort,
      endPresentation_setPort]
    rcases acceptCommand_cases (acceptedWord e s) (endPresentation e s) with ⟨hf, h'⟩ |
      ⟨hf, ⟨r, hd⟩, h'⟩ | ⟨hf, i, hd, h'⟩
    · rw [← Host.Outcome.next.inj (h'.symm.trans h)]
      exact acceptCommand_of_fault _ (by simpa using hf)
    · rw [← Host.Outcome.next.inj (h'.symm.trans h), ← enterFault_setPort]
      exact acceptCommand_of_reserved hd (by simpa using hf)
    · rw [acceptCommand_of_decode _ hd]
      exact exec_setPort i es (h' ▸ h)

theorem run_zero (s : State) : run 0 s = .next s := (rfl)

theorem core_run_succ (M : Host.Core) (k : Nat) {s t : M.State} (h : M.step s = .next t) :
    M.run (k + 1) s = M.run k t := by
  simp [Host.Core.run, h]

/-- One step, then the rest. -/
theorem run_succ (k : Nat) {s t : State} (h : step s = .next t) : run (k + 1) s = run k t :=
  core_run_succ Sys2Proof.core k h

theorem runEdges_nil (s : State) : runEdges [] s = .next (setPort [] s) := (rfl)

/-- One edge, then the rest. -/
theorem runEdges_cons {e : PortEdge} (es : List PortEdge) {s t : State}
    (h : clockEdge e s = .next t) : runEdges (e :: es) s = runEdges es t := by
  unfold runEdges
  rw [List.length_cons]
  refine run_succ _ ?_
  rw [step_of_cons (e := e) (rest := es) (by simp), setPort_setPort]
  exact clockEdge_setPort e es h

/-- Runs are put together end to end. -/
theorem runEdges_append (es fs : List PortEdge) {s t : State} (h : runEdges es s = .next t) :
    runEdges (es ++ fs) s = runEdges fs t := by
  induction es generalizing s with
  | nil =>
    rw [← Host.Outcome.next.inj ((runEdges_nil s).symm.trans h), List.nil_append]
    simp [runEdges]
  | cons e es ih =>
    obtain ⟨u, hu⟩ := clockEdge_next e s
    rw [runEdges_cons es hu] at h
    rw [List.cons_append, runEdges_cons _ hu, ih h]

/-- An edge that accepts the word of a command, presented afresh, runs the command. -/
theorem clockEdge_accept {cmd : Cmd} {i : Instr} {s : State} (h : decode cmd = .ok i)
    (hp : s.presented = .nothing) : clockEdge (acceptEdge cmd) s = exec i s := by
  obtain ⟨hw, he⟩ := acceptedWord_of_steady (e := acceptEdge cmd) (.inl hp)
  have hs : setPresented .nothing s = s := by rw [← hp, setPresented_self]
  rw [← acceptCommand_of_decode s h]
  simp only [clockEdge, hw, he, hs]
  rfl

/-- The first command of a run, from a port where nothing is presented. -/
theorem runCommands_cons {i : Instr} (is : List Instr) {s t : State} (hw : decode (encode i) = .ok i)
    (h : exec i (setPresented .nothing s) = .next t) : runCommands (i :: is) s = runCommands is t := by
  have hp : t.presented = .nothing := (exec_own_fields h).2.1
  have ht : setPresented .nothing t = t := by rw [← hp, setPresented_self]
  unfold runCommands
  rw [ht]
  exact runEdges_cons _ ((clockEdge_accept hw rfl).trans h)

theorem runCommands_nil (s : State) :
    runCommands [] s = .next (setPort [] (setPresented .nothing s)) := (rfl)

/-- Runs of commands are put together end to end. -/
theorem runCommands_append (is js : List Instr) {s t : State} (h : runCommands is s = .next t)
    (hp : t.presented = .nothing) : runCommands (is ++ js) s = runCommands js t := by
  have ht : setPresented .nothing t = t := by rw [← hp, setPresented_self]
  unfold runCommands at h ⊢
  rw [acceptAll, List.map_append, ht]
  exact runEdges_append _ _ h

end Sys2Proof.Safety
end

