-- ==== Sys2Proof/Laws/Tail.lean ====
section
/-! SUPPORT. The tail loops of FINAL (spec/43_final.md R170, R173) are the structural walk through the
tail bytes that `xxh64` uses. -/

namespace Sys2Proof.Safety

open Sys2Proof.Machine

variable (pay : List Byte)

/-! ## One round of each loop -/

theorem absorb8_of_le {n p : Nat} (fuel : Nat) (h : Word) (h8 : 8 ≤ n - p) :
    absorb8 pay n (fuel + 1) p h = absorb8 pay n fuel (p + 8) (tail8 h (payRead pay p 8)) := by
  rw [absorb8, if_pos h8]

theorem absorb8_of_lt {n p : Nat} (fuel : Nat) (h : Word) (h8 : ¬ 8 ≤ n - p) :
    absorb8 pay n fuel p h = (p, h) := by
  cases fuel with
  | zero => rfl
  | succ fuel => rw [absorb8, if_neg h8]

theorem absorb1_of_lt {n p : Nat} (fuel : Nat) (h : Word) (hp : p < n) :
    absorb1 pay n (fuel + 1) p h = absorb1 pay n fuel (p + 1) (tail1 h (payRead pay p 1)) := by
  rw [absorb1, if_pos hp]

theorem absorb1_of_ge {n p : Nat} (fuel : Nat) (h : Word) (hp : ¬ p < n) :
    absorb1 pay n fuel p h = h := by
  cases fuel with
  | zero => rfl
  | succ fuel => rw [absorb1, if_neg hp]

/-! ## The loops against the walk

The three steps of `mixTail`, named so that proofs about the walk never open them. -/

def step8 (h : Word) (bs : List Byte) : Word := tail8 h (BitVec.ofNat 64 (leNat bs))
def step4 (h : Word) (bs : List Byte) : Word := tail4 h (BitVec.ofNat 32 (leNat bs))
def step1 (h : Word) (bs : List Byte) : Word := tail1 h (BitVec.ofNat 8 (leNat bs))

theorem mixTail_eq (h : Word) : mixTail h pay = walkTail step8 step4 step1 h pay := (rfl)

theorem tail8_payRead (h : Word) (p : Nat) :
    tail8 h (payRead pay p 8) = step8 h ((pay.drop p).take 8) := (rfl)

theorem tail4_payRead (h : Word) (p : Nat) :
    tail4 h (payRead pay p 4) = step4 h ((pay.drop p).take 4) := (rfl)

theorem tail1_payRead (h : Word) {p : Nat} (hp : p < pay.length) :
    tail1 h (payRead pay p 1) = step1 h [pay[p]] := by
  rw [step1, payRead, List.drop_eq_getElem_cons hp, List.take_succ_cons, List.take_zero]

/-- The byte loop, where fewer than four bytes are left. -/
theorem absorb1_eq_walk : ∀ (k p fuel : Nat) (h : Word), pay.length - p = k → p ≤ pay.length →
    k < 4 → k ≤ fuel →
    absorb1 pay pay.length fuel p h = walkTail step8 step4 step1 h (pay.drop p) := by
  intro k
  induction k with
  | zero =>
    intro p fuel h hk hp _ _
    rw [absorb1_of_ge _ _ _ (by omega), List.drop_eq_nil_of_le (by omega)]
    simp [walkTail]
  | succ k ih =>
    intro p fuel h hk hp h4 hf
    obtain ⟨f, rfl⟩ : ∃ f, fuel = f + 1 := ⟨fuel - 1, by omega⟩
    rw [absorb1_of_lt _ _ _ (by omega),
      ih (p + 1) f _ (by omega) (by omega) (by omega) (by omega), tail1_payRead pay h (by omega),
      List.drop_eq_getElem_cons (by omega : p < pay.length)]
    have hr : (pay.drop (p + 1)).length < 3 := by
      rw [List.length_drop]
      omega
    generalize pay.drop (p + 1) = r at hr ⊢
    rcases r with _ | ⟨x, _ | ⟨y, _ | ⟨z, r⟩⟩⟩ <;>
      first
        | (simp at hr; omega)
        | simp [walkTail]

/-- The four-byte step and the byte loop, where fewer than eight bytes are left. -/
theorem absorb4_eq_walk (p : Nat) (h : Word) (h8 : pay.length - p < 8) (hp : p ≤ pay.length) :
    absorb1 pay pay.length pay.length (absorb4 pay pay.length p h).1
      (absorb4 pay pay.length p h).2 = walkTail step8 step4 step1 h (pay.drop p) := by
  unfold absorb4
  split
  · rw [absorb1_eq_walk pay (pay.length - (p + 4)) (p + 4) _ _ rfl (by omega) (by omega) (by omega)]
    have hsplit : pay.drop p = (pay.drop p).take 4 ++ pay.drop (p + 4) := by
      rw [← List.drop_drop, List.take_append_drop]
    have ha : ((pay.drop p).take 4).length = 4 := by
      rw [List.length_take, List.length_drop]
      omega
    have hb : (pay.drop (p + 4)).length < 4 := by
      rw [List.length_drop]
      omega
    rw [tail4_payRead, hsplit]
    generalize (pay.drop p).take 4 = a at ha ⊢
    generalize pay.drop (p + 4) = b at hb ⊢
    rcases a with _ | ⟨a0, _ | ⟨a1, _ | ⟨a2, _ | ⟨a3, _ | ⟨a4, a⟩⟩⟩⟩⟩ <;> simp at ha
    rcases b with _ | ⟨x, _ | ⟨y, _ | ⟨z, _ | ⟨w, r⟩⟩⟩⟩ <;>
      first
        | (simp at hb; omega)
        | simp [walkTail]
  · exact absorb1_eq_walk pay (pay.length - p) p _ h rfl hp (by omega) (by omega)

/-- All three loops, from any position. -/
theorem absorb8_eq_walk : ∀ (fuel p : Nat) (h : Word), p ≤ pay.length → pay.length - p ≤ fuel →
    absorb1 pay pay.length pay.length
      (absorb4 pay pay.length (absorb8 pay pay.length fuel p h).1
        (absorb8 pay pay.length fuel p h).2).1
      (absorb4 pay pay.length (absorb8 pay pay.length fuel p h).1
        (absorb8 pay pay.length fuel p h).2).2 = walkTail step8 step4 step1 h (pay.drop p) := by
  intro fuel
  induction fuel with
  | zero =>
    intro p h hp hf
    rw [absorb8_of_lt _ _ _ (by omega)]
    exact absorb4_eq_walk pay p h (by omega) hp
  | succ f ih =>
    intro p h hp hf
    by_cases h8 : 8 ≤ pay.length - p
    · rw [absorb8_of_le _ _ _ h8, ih (p + 8) _ (by omega) (by omega)]
      have hsplit : pay.drop p = (pay.drop p).take 8 ++ pay.drop (p + 8) := by
        rw [← List.drop_drop, List.take_append_drop]
      have ha : ((pay.drop p).take 8).length = 8 := by
        rw [List.length_take, List.length_drop]
        omega
      rw [tail8_payRead, hsplit]
      generalize (pay.drop p).take 8 = a at ha ⊢
      generalize pay.drop (p + 8) = b
      rcases a with _ | ⟨a0, _ | ⟨a1, _ | ⟨a2, _ | ⟨a3, _ | ⟨a4, _ | ⟨a5, _ | ⟨a6, _ | ⟨a7, _ |
        ⟨a8, a⟩⟩⟩⟩⟩⟩⟩⟩⟩ <;> simp at ha
      simp [walkTail]
    · rw [absorb8_of_lt _ _ _ h8]
      exact absorb4_eq_walk pay p h (by omega) hp

/-- The tail of FINAL, all its bytes in hand, is the walk through them. -/
theorem absorbTail_eq_mixTail (h : Word) : absorbTail pay pay.length h = mixTail h pay := by
  rw [mixTail_eq]
  simpa [absorbTail] using absorb8_eq_walk pay pay.length 0 h (Nat.zero_le _) (by omega)

end Sys2Proof.Safety
end

