-- ==== Sys2Proof/Tests/Slice0.lean ====
section
/-! SUPPORT. Tests. Every expected value is copied from the spec: the worked examples of
spec/40_datapath_primitives.md, spec/41_init.md, spec/42_group.md, spec/43_final.md and the vectors of
spec/95_test_vectors.md. The witnesses at the end show that the hypotheses of the statements can be
met, each clause at a boundary of its range. -/

namespace Sys2Proof.Tests

open Sys2Proof.Machine Sys2Proof.Safety Sys2Proof.Claims

/-! ## Small states -/

/-- The reset state in a given phase. -/
def inPhase (p : Phase) (k : FaultCode) : State := { State.reset with ph := p, fcode := k }

def sIdle : State := State.reset
def sAbsorb : State := inPhase .absorb .noFault
def sDone : State := inPhase .done .noFault
def sFault : State := inPhase .fault .sequence

/-- The state after `INIT 0` (R150, worked example). -/
def sInit0 : State := { sAbsorb with
  laneA := 0x60EA27EEADC0B5D6#64
  laneB := 0xC2B2AE3D27D4EB4F#64
  laneC := 0#64
  laneD := 0x61C8864E7A143579#64 }

/-- The state before FINAL in program P3 of spec/95_test_vectors.md. -/
def sP3 : State := { sAbsorb with
  laneA := 0x7FC7B76B17D60FE7#64
  laneB := 0xF0FD6AB5DF65A55D#64
  laneC := 0x2DA99F4F1A501478#64
  laneD := 0xC44A06A02ADFB924#64
  len := 96#64
  seed := 0x0123456789ABCDEF#64 }

/-- A field of the next state, if there is one. -/
def after {α : Type} (o : Result) (f : State → α) : Option α :=
  match o with
  | .next t => some (f t)
  | _ => none

/-- An edge at which a word is presented and the core is busy. -/
def waitEdge (cmd : Cmd) : PortEdge := { acceptEdge cmd with cmdReady := false }

/-- One step with a word of the given header and an otherwise zero payload accepted. -/
def accepting (header : BitVec 8) (s : State) : Result :=
  step (setPort [acceptEdge (packCmd header 0)] s)

/-! ## Ill-formed terms are refused by `wellFormed` -/

theorem test_illformed_tail_short : (Instr.final 3 [0x61#8, 0x62#8]).wellFormed = false := by decide
theorem test_illformed_tail_long : (Instr.final 0 [0x61#8]).wellFormed = false := by decide

/-! ## Decoding and encoding, words written out from R93 and spec/95_test_vectors.md section 8 -/

/-- P3: `20 : EF CD AB 89 67 45 23 01 00×24`. -/
theorem test_decode_init : decode (0x20#8 ++ 0#192 ++ 0x0123456789ABCDEF#64 : BitVec 264) =
    .ok (.init 0x0123456789ABCDEF#64) := by decide +kernel

/-- P3: `40 : 00 01 … 1F`, L3 on top. -/
theorem test_decode_group :
    decode (0x40#8 ++ 0x1F1E1D1C1B1A1918#64 ++ 0x1716151413121110#64 ++ 0x0F0E0D0C0B0A0908#64 ++
      0x0706050403020100#64 : BitVec 264) =
    .ok (.group 0x0706050403020100#64 0x0F0E0D0C0B0A0908#64 0x1716151413121110#64
      0x1F1E1D1C1B1A1918#64) := by decide +kernel

/-- Section 5: `63 : 61 62 63 DE AD BE EF …`; the bytes after the third are ignored. -/
theorem test_decode_final :
    decode (0x63#8 ++ 0x1234#200 ++ 0xEFBEADDE636261#56 : BitVec 264) =
    .ok (.final 3 [0x61#8, 0x62#8, 0x63#8]) := by decide +kernel

/-- Section 7: the header table. -/
theorem test_decode_headers :
    (List.map (fun h => (decode (packCmd h 0)).toOption.isSome)
      [0x00#8, 0x1F#8, 0x20#8, 0x21#8, 0x3F#8, 0x40#8, 0x41#8, 0x5F#8, 0x60#8, 0x6A#8, 0x7F#8,
        0x80#8, 0xFF#8]) =
    [false, false, true, false, false, true, false, false, true, true, true, false, false] := by
  decide +kernel

/-- R98: "as a number it is `0x63·2^256 + 0x636261`". -/
theorem test_encode_final : (encode (.final 3 [0x61#8, 0x62#8, 0x63#8])).toNat =
    0x63 * 2 ^ 256 + 0x636261 := by decide +kernel

/-- Table words: the header byte is the low byte, PAY[0] the next. -/
theorem test_table_words :
    decodeTableWord 8 0x20 = some (.init 0) ∧ decodeTableWord 264 0x40 = some (.group 0 0 0 0) ∧
    decodeTableWord 16 0x6161 = some (.final 1 [0x61#8]) ∧ decodeTableWord 8 0x6161 =
      some (.final 1 [0#8]) ∧ decodeTableWord 8 0x41 = none := by decide +kernel

/-! ## Primitives: the examples of R120 to R130 -/

theorem test_rotl64 :
    [1, 7, 11, 12, 18, 23, 27, 31].map (rotl64 0x0123456789ABCDEF#64) =
    [0x02468ACF13579BDE#64, 0x91A2B3C4D5E6F780#64, 0x1A2B3C4D5E6F7809#64, 0x3456789ABCDEF012#64,
      0x159E26AF37BC048D#64, 0xB3C4D5E6F78091A2#64, 0x3C4D5E6F78091A2B#64, 0xC4D5E6F78091A2B3#64] := by
  decide

theorem test_xs : xs (-1) 33 = 0xFFFFFFFF80000000#64 ∧ xs prime5 33 = 0x27D4EB2F05BC1252#64 ∧
    xs 0x6C158A5880000000#64 29 = 0x6C158A5BE0AC52C4#64 := by decide

theorem test_zext : zext64 0xFF#8 * prime5 = 0xAD1643E740115D3B#64 ∧
    zext64 0xFFFFFFFF#32 * prime1 = 0xE7B450D57A143579#64 := by decide

theorem test_round : laneRound 0 1 = 0x7F0E345BE3649CD2#64 ∧
    laneRound (-1) (-1) = 0xE2BA51F296AF98A7#64 := by decide

theorem test_merge : merge4 sP3.laneA sP3.laneB sP3.laneC sP3.laneD = 0x32BA66E9C85962C8#64 ∧
    mergeround 1 2 = 0x3E6ECD4C2FFF0489#64 := by decide

theorem test_tail_steps : tail8 1 2 = 0x23A7DE8FF0E80C42#64 ∧ tail4 1 2 = 0x0B07F4FE142AAB50#64 ∧
    tail1 1 2 = 0x32C5A3EE2CB959EB#64 := by decide

theorem test_avalanche : avalanche 0x0123456789ABCDEF#64 = 0xB84DA6F78DBF6DE2#64 := by decide

/-! ## One step of each command -/

/-- Section 4: the seed 0x0123456789ABCDEF. -/
theorem test_init_lanes :
    after (exec (.init 0x0123456789ABCDEF#64) sIdle)
      (fun t => (t.laneA, t.laneB, t.laneC, t.laneD, t.len, t.ph)) =
    some (0x620D6D56376C83C5#64, 0xC3D5F3A4B180B93E#64, 0x0123456789ABCDEF#64,
      0x62EBCBB603C00368#64, 0#64, .absorb) := by decide

/-- P5: INIT in FAULT is dropped. -/
theorem test_init_dropped_in_fault :
    after (exec (.init 0) sFault) (fun t => (t.ph, t.fcode)) = some (.fault, .sequence) := by decide

/-- Section 4: `GROUP FF×32` after INIT 0, lane B becomes zero. -/
theorem test_group_lanes :
    after (exec (.group (-1) (-1) (-1) (-1)) sInit0)
      (fun t => (t.laneA, t.laneB, t.laneC, t.laneD, t.len)) =
    some (0xB7439918ACEB05E8#64, 0#64, 0xA5B0373616AF98A7#64, 0x132B09AF63D8C838#64, 32#64) := by
  decide

/-- Section 4: `GROUP 00 01 … 1F`, from the word on the port. -/
theorem test_group_word :
    after (step (setPort [acceptEdge (encode (groupOf ((List.range 32).map (BitVec.ofNat 8))))]
      sInit0)) (fun t => (t.laneA, t.laneB, t.laneC, t.laneD)) =
    some (0xF4B53B57406B5E99#64, 0xC3D34B511FC32561#64, 0xCB26C007C8A1553F#64,
      0x9A44D001A7F91C07#64) := by decide +kernel

/-- V2: the 31 bytes of the text, short path, three eight-byte steps, one four-byte step, three single
bytes. -/
theorem test_final_short :
    after (exec (finalOf (utf8Bytes "Something clever should go here")) sInit0)
      (fun t => (t.hash, t.len, t.ph)) =
    some (0xF4C92BE058F432D0#64, 31#64, .done) := by decide +kernel

/-- P3: the merge path with a four-byte tail. -/
theorem test_final_merge :
    after (exec (.final 4 [0x60#8, 0x61#8, 0x62#8, 0x63#8]) sP3)
      (fun t => (t.hash, t.len, t.laneA, hashPort t)) =
    some (0x40E8F4EC2207F62C#64, 100#64, 0x7FC7B76B17D60FE7#64, some 0x40E8F4EC2207F62C#64) := by
  decide

/-! ## Phases and faults: rows of spec/95_test_vectors.md section 7 -/

theorem test_reserved_before_sequence :
    after (accepting 0x41#8 sIdle) (fun t => (phasePort t, fcodePort t)) = some (3#2, 1#2) := by
  decide +kernel

theorem test_second_final_faults :
    after (accepting 0x60#8 sDone) (fun t => (phasePort t, fcodePort t, hashPort t)) =
    some (3#2, 2#2, none) := by decide +kernel

theorem test_reset_edge_leaves_fault :
    after (step (setPort [resetEdge] sFault)) (fun t => (phasePort t, fcodePort t)) =
    some (0#2, 0#2) := by decide

theorem test_idle_port : after (step sAbsorb) (fun t => t.ph) = some .absorb := by decide

/-- R40, H3: a word waiting at a busy core is remembered, and one that changes is noticed. -/
theorem test_presented :
    after (step (setPort [waitEdge 5] sAbsorb)) (fun t => (t.ph, t.presented)) =
      some (.absorb, .steady 5) ∧
    Presented.hold (.steady 5) (waitEdge 6) = .changed ∧
    Presented.hold .changed idleEdge = .nothing := by decide +kernel

/-- P7: 7-byte chunks of P3's message give P3's commands. -/
theorem test_stream_p7 :
    streamCommands 0x0123456789ABCDEF#64
      ((List.range 15).map fun c => ((List.range 7).map fun i => 7 * c + i).filterMap fun k =>
        if k < 100 then some (BitVec.ofNat 8 k) else none) =
    hashCommands 0x0123456789ABCDEF#64 ((List.range 100).map (BitVec.ofNat 8)) := by decide +kernel

/-! ## Witnesses for the hypotheses of the statements -/

theorem witness_DecodeEncodeRoundTrip :
    (Instr.init 0).wellFormed = true ∧ (Instr.group 0 0 0 (-1)).wellFormed = true ∧
    (Instr.final 0 []).wellFormed = true ∧
    (Instr.final 31 (List.replicate 31 0xFF#8)).wellFormed = true := by decide

theorem witness_EncodeDecodeKeepsReadBits :
    (decode (packCmd 0x7F#8 (-1))).toOption = some (.final 31 (List.replicate 31 0xFF#8)) ∧
    (decode (packCmd 0x20#8 (-1))).toOption = some (.init (-1)) := by decide +kernel

/-- Each row of the opcode map at its boundaries, and a reserved header on either side of each. -/
theorem witness_DecodeFollowsOpcodeMap :
    (0x20#8 &&& 0xFF#8 = 0x20#8) ∧ (0x40#8 &&& 0xFF#8 = 0x40#8) ∧ (0x60#8 &&& 0xE0#8 = 0x60#8) ∧
    (0x7F#8 &&& 0xE0#8 = 0x60#8) ∧
    ∀ h ∈ [0x1F#8, 0x21#8, 0x3F#8, 0x41#8, 0x5F#8, 0x80#8],
      (packCmd h 0).extractLsb' 256 8 &&& 0xFF#8 ≠ 0x20#8 ∧
      (packCmd h 0).extractLsb' 256 8 &&& 0xFF#8 ≠ 0x40#8 ∧
      (packCmd h 0).extractLsb' 256 8 &&& 0xE0#8 ≠ 0x60#8 := by decide +kernel

theorem witness_ReservedEncodings :
    reservedHeader ((packCmd 0x41#8 0).extractLsb' 256 8).toNat = true ∧ sIdle.ph ≠ .fault := by
  decide +kernel

theorem witness_PayReadIsLittleEndian : 27 + 4 ≤ (List.replicate 31 0#8).length := by decide

theorem witness_ListingRoundTrip :
    (List.replicate 33 0x20#8).length = 33 ∧ (List.replicate 32 0x20#8).length ≠ 33 := by decide

theorem witness_FetchWordRunsNext : ∃ i, decodeTableWord 8 0x60 = some i :=
  ⟨.final 0 [], by decide +kernel⟩

theorem witness_RotateLeftBits : (1 ≤ 1 ∧ 1 ≤ 63) ∧ (1 ≤ 63 ∧ 63 ≤ 63) := by decide

theorem witness_XorShiftBits : (29 = 33 ∨ 29 = 29 ∨ 29 = 32) ∧ (0 ≤ 63 - 33) ∧ ¬ (31 ≤ 63 - 33) := by
  decide

theorem witness_DatapathIsInvertible :
    prime1.getLsbD 0 = true ∧ (1 ≤ 31 ∧ 31 ≤ 63) ∧ (33 = 33 ∨ 33 = 29 ∨ 33 = 32) := by decide

/-- The phases of the three command statements, and their words. -/
theorem witness_InitResult :
    sIdle.ph ≠ .fault ∧ sAbsorb.ph ≠ .fault ∧ sDone.ph ≠ .fault ∧ sFault.ph = .fault ∧
    headerOf (packCmd 0x20#8 (-1)) = 0x20#8 ∧
    opOf (packCmd 0x21#8 0) = 1#3 ∧ nOf (packCmd 0x21#8 0) ≠ 0#5 := by decide +kernel

theorem witness_GroupResult :
    sAbsorb.ph = .absorb ∧ (sIdle.ph = .idle ∨ sIdle.ph = .done) ∧ sFault.ph = .fault ∧
    headerOf (packCmd 0x40#8 (-1)) = 0x40#8 ∧
    opOf (packCmd 0x5F#8 0) = 2#3 ∧ nOf (packCmd 0x5F#8 0) ≠ 0#5 := by decide +kernel

theorem witness_FinalResult :
    [0x61#8, 0x62#8].length = (2 : Fin 32).val ∧ sP3.ph = .absorb ∧
    (sDone.ph = .idle ∨ sDone.ph = .done) ∧ sFault.ph = .fault ∧
    (headerOf (packCmd 0x7F#8 0)).toNat = 0x60 + (31 : Fin 32).val := by decide +kernel

theorem witness_RegisterWriters :
    ∃ t, exec (.init 1) sIdle = .next t ∧ t.seed ≠ sIdle.seed ∧ t.laneC ≠ sIdle.laneC :=
  ⟨_, rfl, by decide, by decide⟩

theorem witness_RegisterWriters_hash :
    ∃ t, exec (.final 0 []) sInit0 = .next t ∧ t.hash ≠ sInit0.hash := ⟨_, rfl, by decide⟩

theorem witness_RegisterWriters_fcode :
    ∃ t, exec (.group 0 0 0 0) sIdle = .next t ∧ t.fcode ≠ sIdle.fcode := ⟨_, rfl, by decide⟩

theorem witness_LanesAreIndependent :
    sInit0.ph = sAbsorb.ph ∧ sInit0.x 2 = sAbsorb.x 2 ∧ sInit0.x 0 ≠ sAbsorb.x 0 ∧
    (∃ t, exec (.group 0 0 5 0) sInit0 = .next t) ∧
    ∃ t, exec (.group 0 0 5 0) sAbsorb = .next t :=
  ⟨rfl, rfl, by decide, ⟨_, rfl⟩, ⟨_, rfl⟩⟩

/-- An edge that accepts a command, one that resets, and one at which nothing is accepted. -/
theorem witness_edges :
    ((acceptEdge (packCmd 0x60#8 0)).rst = false ∧ (acceptEdge (packCmd 0x60#8 0)).accepts = true ∧
      (acceptEdge (packCmd 0x60#8 0)).cmdValid = true ∧
      (acceptEdge (packCmd 0x60#8 0)).cmdReady = true) ∧
    resetEdge.rst = true ∧ busyEdge.rst = false ∧ busyEdge.cmdValid = false := ⟨⟨rfl, rfl, rfl, rfl⟩,
      rfl, rfl, rfl⟩

theorem witness_StepRunsDecodedInstruction :
    ∃ (s : State) (e : PortEdge) (rest : List PortEdge) (i : Instr), s.port = e :: rest ∧
      e.rst = false ∧ e.cmdValid = true ∧ e.cmdReady = true ∧ s.presented = .nothing ∧
      decode e.cmd = .ok i :=
  ⟨setPort [acceptEdge (packCmd 0x60#8 0)] sAbsorb, _, _, .final 0 [], rfl, rfl, rfl, rfl, rfl,
    by decide +kernel⟩

/-- A word that changed, and one that was held. -/
theorem witness_StepRunsDecodedInstruction_presented :
    (setPresented (.steady 5) sAbsorb).presented = .steady (acceptEdge 5).cmd ∧
    (setPresented (.steady 5) sAbsorb).presented ≠ .nothing ∧
    (setPresented (.steady 5) sAbsorb).presented ≠ .steady (acceptEdge 6).cmd := by decide

/-- Every clause of OrderOfChecks: reset, nothing accepted, FAULT, reserved, out of sequence,
executed. -/
theorem witness_OrderOfChecks :
    (setPort [resetEdge] sFault).port = resetEdge :: [] ∧ resetEdge.rst = true ∧
    (busyEdge.cmdValid = false ∨ busyEdge.cmdReady = false) ∧ sFault.ph = .fault ∧
    (decode (acceptedWord (acceptEdge (packCmd 0x41#8 0)) sIdle)).toOption = none ∧
    (decode (acceptedWord (acceptEdge (packCmd 0x60#8 0)) sIdle)).toOption = some (.final 0 []) ∧
    sIdle.ph ≠ .absorb ∧
    sIdle.ph ≠ .fault ∧ sAbsorb.ph = .absorb := by decide +kernel

theorem witness_PhaseTable :
    (setPort [acceptEdge 0, resetEdge] sIdle).port = acceptEdge 0 :: [resetEdge] ∧
    (acceptEdge 0).accepts = true ∧ resetEdge.rst = true := ⟨rfl, rfl, rfl⟩

theorem witness_FaultCauses :
    sIdle.ph ≠ .fault ∧ sIdle.fcode = .noFault ∧
    ∃ t, step (setPort [acceptEdge (packCmd 0x7F#8 0)] sIdle) = .next t ∧ t.fcode.bits = 2#2 := by
  refine ⟨by decide, rfl, ?_⟩
  obtain ⟨t, ht⟩ := clockEdge_next (acceptEdge (packCmd 0x7F#8 0)) (setPort [] sIdle)
  have h : after (step (setPort [acceptEdge (packCmd 0x7F#8 0)] sIdle)) (fun t => t.fcode.bits) =
      some 2#2 := by decide +kernel
  have hs : step (setPort [acceptEdge (packCmd 0x7F#8 0)] sIdle) = .next t :=
    (step_of_cons (s := setPort [acceptEdge (packCmd 0x7F#8 0)] sIdle) rfl).trans ht
  rw [hs] at h
  exact ⟨t, hs, Option.some.inj h⟩

/-- A step into FAULT, from DONE. -/
theorem witness_FaultEntryIsPrecise :
    sDone.ph ≠ .fault ∧
    after (accepting 0x00#8 sDone) (fun t => (t.ph, t.fcode)) = some (.fault, .reservedCmd) := by
  decide +kernel

/-- Words dropped in FAULT, and the reset edge that leaves it. -/
theorem witness_FaultIsSticky :
    sFault.ph = .fault ∧ (∀ e ∈ [acceptEdge 0, busyEdge], e.rst = false) ∧
    after (step (setPort [resetEdge] sFault)) (fun t => t.ph) = some .idle := by decide +kernel

theorem witness_ResetEdgeClearsControl :
    (setPort [{ acceptEdge 0 with rst := true }] sFault).port = { acceptEdge 0 with rst := true } :: [] ∧
    ({ acceptEdge 0 with rst := true } : PortEdge).rst = true ∧ sFault.ph = .fault := ⟨rfl, rfl, rfl⟩

/-- A word held for one edge and then accepted. -/
theorem witness_HeldCommandsAreAcceptedAsOffered :
    commandHeld [waitEdge 5, acceptEdge 5] = true ∧
    (∀ e ∈ [waitEdge 5, acceptEdge 5], e.rst = false) ∧
    ([waitEdge 5, acceptEdge 5].getLast? = some (acceptEdge 5) ∧ (acceptEdge 5).cmdValid = true ∧
      (acceptEdge 5).cmdReady = true) ∧
    sIdle.presented = .nothing := by decide +kernel

/-- A word held for one edge, one withdrawn, and a reset. -/
theorem witness_WaitingEdgesAreInvisible :
    sIdle.presented = .nothing ∧
    commandStable [waitEdge 5, acceptEdge 5, waitEdge 6, idleEdge, acceptEdge 7, resetEdge] = true := by
  decide +kernel

/-- A word that changes while presented, one held, and one presented after an idle edge. -/
theorem witness_ChangedWordIsUnspecified :
    (setPort [acceptEdge 6] (setPresented (.steady 5) sAbsorb)).port = acceptEdge 6 :: [] ∧
    (acceptEdge 6).accepts = true ∧ (setPresented (.steady 5) sAbsorb).presented = .steady 5 ∧
    5#264 ≠ (acceptEdge 6).cmd ∧
    (waitEdge 5).cmdValid = true ∧ (waitEdge 5).rst = false ∧ (waitEdge 5).cmdReady = false ∧
    (acceptEdge 7).cmd ≠ (waitEdge 5).cmd ∧ (waitEdge 5).cmd = (acceptEdge 5).cmd ∧
    idleEdge.cmdValid = false ∧ sAbsorb.presented = .nothing := by decide

theorem reset_inv : Inv State.reset := ⟨by decide, by decide, by decide⟩

theorem absorb_inv : Inv sInit0 := ⟨by decide, by decide, by decide⟩

theorem witness_StepKeepsInvariant :
    Inv (setPort [acceptEdge (packCmd 0x40#8 0)] sInit0) ∧
    ∃ t, step (setPort [acceptEdge (packCmd 0x40#8 0)] sInit0) = .next t := by
  refine ⟨⟨by decide, by decide, by decide⟩, ?_⟩
  rw [step_of_cons (s := setPort [acceptEdge (packCmd 0x40#8 0)] sInit0) rfl]
  exact clockEdge_next _ _

theorem witness_HashIsWrittenByFinalOnly :
    after (accepting 0x60#8 sInit0) (fun t => (t.hash, t.ph)) =
      some (0xEF46DB3751D8E999#64, .done) ∧ sInit0.hash ≠ 0xEF46DB3751D8E999#64 ∧
    sDone.ph = .done := by decide +kernel

/-- Two states that differ in every register that does not matter in IDLE. -/
theorem witness_UnspecifiedRegistersNeverShow :
    SameVisible sIdle { sIdle with laneA := 1, laneB := 1, laneC := 1, laneD := 1, len := 1, seed := 1, hash := 1 } ∧
    ∃ s', run 0 sIdle = .next s' :=
  ⟨⟨rfl, rfl, rfl, rfl, rfl, by decide, by decide⟩, ⟨_, run_zero _⟩⟩

theorem witness_InitForgetsThePast :
    headerOf (packCmd 0x20#8 0) = 0x20#8 ∧ headerOf (packCmd 0x20#8 (1#256 <<< 64)) = 0x20#8 ∧
    (packCmd 0x20#8 0).extractLsb' 0 64 = (packCmd 0x20#8 (1#256 <<< 64)).extractLsb' 0 64 ∧
    sIdle.ph ≠ .fault ∧ sP3.ph ≠ .fault := by decide +kernel

/-- Two FINAL words that differ in an unread byte only. -/
theorem witness_UnreadPayloadHasNoEffect :
    headerOf (packCmd 0x63#8 0x636261#256) = headerOf (packCmd 0x63#8 0xFF636261#256) ∧
    (∀ i < bytesRead 0x63#8, payByte (packCmd 0x63#8 0x636261#256) i =
      payByte (packCmd 0x63#8 0xFF636261#256) i) ∧
    packCmd 0x63#8 0x636261#256 ≠ packCmd 0x63#8 0xFF636261#256 ∧
    bytesRead 0x20#8 = 8 ∧ bytesRead 0x40#8 = 32 ∧ bytesRead 0x7F#8 = 31 ∧ bytesRead 0x41#8 = 0 := by
  decide +kernel

/-- The hypotheses of the statements about whole computations. -/
theorem witness_computations :
    sDone.ph ≠ .fault ∧ ([] : List Byte).length < 2 ^ 64 ∧
    (List.replicate 31 0#8).length < 32 ∧ [0#8].length = (1 : Fin 32).val ∧
    32 * ([] : List Words).length + (31 : Fin 32).val < 2 ^ 64 := by decide

theorem witness_MergeTestMeansGroupsSeen :
    ∃ t, runCommands (opened 0 []) sIdle = .next t := by
  have hd : decode (encode (.init 0)) = .ok (.init 0) := by decide +kernel
  obtain ⟨t, ht⟩ := exec_next (.init 0) sIdle
  exact ⟨_, (runCommands_cons (s := sIdle) [] hd (t := t) ht).trans (runCommands_nil t)⟩

theorem witness_RegisterWriters_len :
    ∃ t, exec (.group 0 0 0 0) sInit0 = .next t ∧ t.len ≠ sInit0.len := ⟨_, rfl, by decide⟩

/-- PH changes under INIT, under FINAL and by a fault. -/
theorem witness_RegisterWriters_ph :
    after (exec (.init 0) sDone) State.ph = some .absorb ∧
    after (exec (.final 0 []) sInit0) State.ph = some .done ∧
    after (exec (.final 0 []) sIdle) State.ph = some .fault := by decide

/-- The outputs of each phase, as R36 and R39 print them. -/
theorem test_phase_outputs :
    [sIdle, sAbsorb, sDone, sFault].map (fun s => (phasePort s, hashValid s, faultPort s)) =
    [(0#2, false, false), (1#2, false, false), (2#2, true, false), (3#2, false, true)] := by decide

theorem witness_AssemblerLines :
    assemble (.final 2 [0x61#8, 0x62#8]) = some [.final 2 [0x61#8, 0x62#8]] ∧
    assemble (.final 32 []) = none ∧ assemble (.group []) = none ∧
    (List.replicate 32 0x61#8).length = 32 ∧ (List.replicate 31 0x61#8).length = 31 := by decide

end Sys2Proof.Tests
end

section
/-! PROOFS. More rules about the operations, for the statements of spec/10_state.md: the three commands
by their phase check, one clock edge by its inputs, and two runs of one command side by side. -/

namespace Sys2Proof.Machine

/-! ## One command -/

theorem exec_init (seed : Word) (s : State) : exec (.init seed) s = unlessFault (initEffect seed) s :=
  (rfl)

theorem exec_group (l0 l1 l2 l3 : Word) (s : State) :
    exec (.group l0 l1 l2 l3) s = whenAbsorbing (groupEffect l0 l1 l2 l3) s := (rfl)

theorem exec_final (n : Fin 32) (tail : List Byte) (s : State) :
    exec (.final n tail) s = whenAbsorbing (finalEffect n.val tail) s := (rfl)

section
variable {R : State → State → Prop} {s t s' t' : State}

/-- A relation that the effect keeps is kept by a command that FAULT drops. -/
theorem unlessFault_rel {f : State → State} (hR : R s t) (hp : s.ph = t.ph) (hf : R (f s) (f t))
    (hs : unlessFault f s = .next s') (ht : unlessFault f t = .next t') : R s' t' := by
  by_cases hfault : s.ph = .fault
  · rw [unlessFault_of_fault f hfault] at hs
    rw [unlessFault_of_fault f (hp ▸ hfault)] at ht
    rwa [← Host.Outcome.next.inj hs, ← Host.Outcome.next.inj ht]
  · rw [unlessFault_of_ne f hfault] at hs
    rw [unlessFault_of_ne f (hp ▸ hfault)] at ht
    rwa [← Host.Outcome.next.inj hs, ← Host.Outcome.next.inj ht]

/-- A relation that the effect keeps in ABSORB, and that a SEQUENCE fault keeps, is kept by a command
that only ABSORB executes. -/
theorem whenAbsorbing_rel {f : State → State} (hR : R s t) (hp : s.ph = t.ph)
    (hf : s.ph = .absorb → R (f s) (f t)) (hseq : R (enterFault .sequence s) (enterFault .sequence t))
    (hs : whenAbsorbing f s = .next s') (ht : whenAbsorbing f t = .next t') : R s' t' := by
  have idle_or_done (h : s.ph = .idle ∨ s.ph = .done) : R s' t' := by
    rw [whenAbsorbing_of_idle_or_done f h] at hs
    rw [whenAbsorbing_of_idle_or_done f (hp ▸ h)] at ht
    rwa [← Host.Outcome.next.inj hs, ← Host.Outcome.next.inj ht]
  cases h : s.ph with
  | idle => exact idle_or_done (.inl h)
  | done => exact idle_or_done (.inr h)
  | absorb =>
    rw [whenAbsorbing_of_absorb f h] at hs
    rw [whenAbsorbing_of_absorb f (hp ▸ h)] at ht
    rw [← Host.Outcome.next.inj hs, ← Host.Outcome.next.inj ht]
    exact hf h
  | fault =>
    rw [whenAbsorbing_of_fault f h] at hs
    rw [whenAbsorbing_of_fault f (hp ▸ h)] at ht
    rwa [← Host.Outcome.next.inj hs, ← Host.Outcome.next.inj ht]

/-- Two states of one phase under the same command: a relation is kept where the three effects and the
entry into FAULT keep it. -/
theorem exec_rel (i : Instr) (hR : R s t) (hp : s.ph = t.ph)
    (hinit : ∀ seed, R (initEffect seed s) (initEffect seed t))
    (hgroup : s.ph = .absorb → ∀ l0 l1 l2 l3, R (groupEffect l0 l1 l2 l3 s) (groupEffect l0 l1 l2 l3 t))
    (hfinal : s.ph = .absorb → ∀ n tail, R (finalEffect n tail s) (finalEffect n tail t))
    (hseq : R (enterFault .sequence s) (enterFault .sequence t))
    (hs : exec i s = .next s') (ht : exec i t = .next t') : R s' t' := by
  cases i with
  | init seed =>
    rw [exec_init] at hs ht
    exact unlessFault_rel hR hp (hinit seed) hs ht
  | group l0 l1 l2 l3 =>
    rw [exec_group] at hs ht
    exact whenAbsorbing_rel hR hp (fun h => hgroup h l0 l1 l2 l3) hseq hs ht
  | final n tail =>
    rw [exec_final] at hs ht
    exact whenAbsorbing_rel hR hp (fun h => hfinal h n.val tail) hseq hs ht

end

/-! ## One clock edge -/

/-- No command is accepted at a reset edge (R40). -/
theorem PortEdge.rst_of_accepts {e : PortEdge} (h : e.accepts = true) : e.rst = false := by
  unfold PortEdge.accepts at h
  cases hr : e.rst <;> simp_all

theorem PortEdge.accepts_of_ready {e : PortEdge} (hrst : e.rst = false) (hv : e.cmdValid = true)
    (hr : e.cmdReady = true) : e.accepts = true := by
  simp [PortEdge.accepts, hrst, hv, hr]

theorem PortEdge.not_accepts_of_not_valid {e : PortEdge} (hv : e.cmdValid = false) :
    e.accepts = false := by
  simp [PortEdge.accepts, hv]

theorem PortEdge.not_accepts_of_not_ready {e : PortEdge} (hr : e.cmdReady = false) :
    e.accepts = false := by
  simp [PortEdge.accepts, hr]

section
variable {e : PortEdge} (s : State)

theorem clockEdge_of_reset (h : e.rst = true) :
    clockEdge e s = .next (resetRegisters (setPresented (s.presented.hold e) s)) := by
  simp [clockEdge, h]

theorem clockEdge_of_accepts (h : e.accepts = true) :
    clockEdge e s = acceptCommand (acceptedWord e s) (endPresentation e s) := by
  simp [clockEdge, h, PortEdge.rst_of_accepts h]

theorem clockEdge_of_not_accepts (hr : e.rst = false) (ha : e.accepts = false) :
    clockEdge e s = .next (setPresented (s.presented.hold e) s) := by
  simp [clockEdge, hr, ha]

/-- The word accepted depends on the model's own fields only. -/
theorem acceptedWord_congr (e : PortEdge) {s t : State} (hp : s.presented = t.presented)
    (hd : s.draws = t.draws) : acceptedWord e s = acceptedWord e t := by
  simp [acceptedWord, hp, hd]

end

/-! ## An accepted word -/

/-- A presented word that is held stands presented after the edge. -/
theorem hold_of_valid {p : Presented} {e : PortEdge} (h : p = .nothing ∨ p = .steady e.cmd)
    (hv : e.cmdValid = true) : p.hold e = .steady e.cmd := by
  rcases h with rfl | rfl <;> simp [Presented.hold, hv]

/-- An accepted word leaves the model's own fields as they are. -/
theorem acceptCommand_own_fields {cmd : Cmd} {s t : State} (h : acceptCommand cmd s = .next t) :
    t.port = s.port ∧ t.presented = s.presented ∧ t.draws = s.draws := by
  rcases acceptCommand_cases cmd s with ⟨-, ha⟩ | ⟨-, -, ha⟩ | ⟨-, i, -, ha⟩
  · rw [← Host.Outcome.next.inj (ha.symm.trans h)]
    exact ⟨rfl, rfl, rfl⟩
  · rw [← Host.Outcome.next.inj (ha.symm.trans h)]
    simp
  · exact exec_own_fields (ha.symm.trans h)

/-- An edge that accepts a word held stable acts as that word presented afresh. -/
theorem clockEdge_of_accepts_held {e : PortEdge} {s : State} (ha : e.accepts = true)
    (h : s.presented = .nothing ∨ s.presented = .steady e.cmd) :
    clockEdge e s = clockEdge (acceptEdge e.cmd) (setPresented .nothing s) := by
  obtain ⟨hw, he⟩ := acceptedWord_of_steady h
  obtain ⟨hw', he'⟩ := acceptedWord_of_steady (e := acceptEdge e.cmd) (s := setPresented .nothing s)
    (.inl rfl)
  rw [clockEdge_of_accepts s ha, clockEdge_of_accepts _ (e := acceptEdge e.cmd) rfl, hw, he, hw', he',
    setPresented_setPresented]
  rfl

/-- After an accepted word nothing is presented. -/
theorem presented_of_clockEdge_accepts {e : PortEdge} {s t : State} (ha : e.accepts = true)
    (h : clockEdge e s = .next t) : t.presented = .nothing := by
  rw [clockEdge_of_accepts s ha] at h
  exact (acceptCommand_own_fields h).2.1.trans (endPresentation_presented e s)

end Sys2Proof.Machine
end

section
/-! PROOFS. The invariant of R33 and R38 (statements StepKeepsInvariant and ResetMeetsInvariant). -/

namespace Sys2Proof.Safety

open Sys2Proof.Machine

/-- The invariant speaks of PH, FCODE and LEN only. -/
theorem inv_congr {s t : State} (hi : Inv s) (hp : t.ph = s.ph) (hk : t.fcode = s.fcode)
    (hl : t.len = s.len) : Inv t where
  code_iff_fault := by rw [hp, hk]; exact hi.code_iff_fault
  code_used := by rw [hk]; exact hi.code_used
  len_whole_groups := by rw [hp, hl]; exact hi.len_whole_groups

/-- The invariant outside FAULT: FCODE is clear, and an open computation has whole groups. -/
theorem inv_of_noFault {s : State} (hp : s.ph ≠ .fault) (hk : s.fcode = .noFault)
    (hl : s.ph = .absorb → s.len.toNat % 32 = 0) : Inv s where
  code_iff_fault := by simp [hp, hk]
  code_used := by simp [hk]
  len_whole_groups := hl

theorem inv_enterFault {k : FaultCode} (h0 : k ≠ .noFault) (h1 : k ≠ .unused) (s : State) :
    Inv (enterFault k s) where
  code_iff_fault := by simp [h0]
  code_used := by simpa using h1
  len_whole_groups := by simp

theorem inv_resetRegisters (s : State) : Inv (resetRegisters s) :=
  inv_of_noFault (by simp) (by simp) (by simp)

theorem Inv.fcode_of_ne {s : State} (hi : Inv s) (hp : s.ph ≠ .fault) : s.fcode = .noFault :=
  Decidable.not_not.mp (mt hi.code_iff_fault.mp hp)

/-- Adding a group keeps LEN a multiple of 32, the wrap at 2^64 included (R33). -/
theorem add_group_mod (len : Word) (h : len.toNat % 32 = 0) : (len + 32#64).toNat % 32 = 0 := by
  rw [BitVec.toNat_add, BitVec.toNat_ofNat]
  omega

/-- Every command keeps the invariant. -/
theorem inv_exec {i : Instr} {s t : State} (hi : Inv s) (h : exec i s = .next t) : Inv t := by
  rcases exec_inv h with ⟨-, rfl⟩ | ⟨hp, seed, -, rfl⟩ | ⟨hp, l0, l1, l2, l3, -, rfl⟩ |
    ⟨hp, n, tail, -, rfl⟩ | ⟨-, -, rfl⟩
  · exact hi
  · exact inv_of_noFault (by simp) (by simpa using hi.fcode_of_ne hp) (by simp)
  · have hk : s.fcode = .noFault := hi.fcode_of_ne (by simp [hp])
    have hl := add_group_mod s.len (hi.len_whole_groups hp)
    exact inv_of_noFault (by simp [hp]) (by simpa using hk) (by rw [groupEffect_len]; exact fun _ => hl)
  · have hk : s.fcode = .noFault := hi.fcode_of_ne (by simp [hp])
    exact inv_of_noFault (by simp) (by simpa using hk) (by simp)
  · exact inv_enterFault (by decide) (by decide) s

end Sys2Proof.Safety
end

section
/-! PROOFS. Two cores that agree on what can be read (R44, R45) go on agreeing (statement
UnspecifiedRegistersNeverShow): one lemma per operation, then the step, then the run. -/

namespace Sys2Proof.Safety

open Sys2Proof.Machine

variable {s t s' t' : State}

/-! ## The operations -/

theorem sameVisible_setPort (h : SameVisible s t) (es : List PortEdge) :
    SameVisible (setPort es s) (setPort es t) :=
  { h with port := by simp }

theorem sameVisible_setPresented (h : SameVisible s t) (p : Presented) :
    SameVisible (setPresented p s) (setPresented p t) :=
  { h with presented := by simp }

theorem sameVisible_endPresentation (h : SameVisible s t) (e : PortEdge) :
    SameVisible (endPresentation e s) (endPresentation e t) where
  ph := by simpa using h.ph
  fcode := by simpa using h.fcode
  port := by simpa using h.port
  presented := by simp
  draws := by rw [endPresentation_draws, endPresentation_draws, h.presented, h.draws]
  absorb := by simpa using h.absorb
  done := by simpa using h.done

/-- After a reset edge no data register can be read. -/
theorem sameVisible_resetRegisters (h : SameVisible s t) :
    SameVisible (resetRegisters s) (resetRegisters t) :=
  { h with
    ph := by simp
    fcode := by simp
    draws := by simp [h.draws]
    absorb := by simp
    done := by simp }

/-- In FAULT no data register can be read. -/
theorem sameVisible_enterFault (h : SameVisible s t) (k : FaultCode) :
    SameVisible (enterFault k s) (enterFault k t) :=
  { h with
    ph := by simp
    fcode := by simp
    absorb := by simp
    done := by simp }

/-- INIT writes every register that ABSORB can read. -/
theorem sameVisible_initEffect (h : SameVisible s t) (seed : Word) :
    SameVisible (initEffect seed s) (initEffect seed t) where
  ph := by simp
  fcode := by simpa using h.fcode
  port := by simpa using h.port
  presented := by simpa using h.presented
  draws := by simpa using h.draws
  absorb := by simp
  done := by simp

theorem sameVisible_groupEffect (h : SameVisible s t) (hp : s.ph = .absorb) (l0 l1 l2 l3 : Word) :
    SameVisible (groupEffect l0 l1 l2 l3 s) (groupEffect l0 l1 l2 l3 t) := by
  obtain ⟨ha, hb, hc, hd, hlen, hseed⟩ := h.absorb hp
  exact {
    ph := by simpa using h.ph
    fcode := by simpa using h.fcode
    port := by simpa using h.port
    presented := by simpa using h.presented
    draws := by simpa using h.draws
    absorb := by simp [ha, hb, hc, hd, hlen, hseed]
    done := by simp [hp] }

/-- The hash is a function of the lanes and SEED, and of the counter it is given. -/
theorem finalHash_congr (n : Nat) (pay : List Byte) (len1 : Word) (ha : s.laneA = t.laneA)
    (hb : s.laneB = t.laneB) (hc : s.laneC = t.laneC) (hd : s.laneD = t.laneD)
    (hseed : s.seed = t.seed) : finalHash n pay len1 s = finalHash n pay len1 t := by
  simp only [finalHash, finalStart, ha, hb, hc, hd, hseed]

theorem sameVisible_finalEffect (h : SameVisible s t) (hp : s.ph = .absorb) (n : Nat)
    (tail : List Byte) : SameVisible (finalEffect n tail s) (finalEffect n tail t) := by
  obtain ⟨ha, hb, hc, hd, hlen, hseed⟩ := h.absorb hp
  exact {
    ph := by simp
    fcode := by simpa using h.fcode
    port := by simpa using h.port
    presented := by simpa using h.presented
    draws := by simpa using h.draws
    absorb := by simp
    done := by
      intro _
      rw [finalEffect_hash, finalEffect_hash, hlen]
      exact finalHash_congr n tail _ ha hb hc hd hseed }

/-! ## Commands, edges, steps and runs -/

theorem sameVisible_exec (h : SameVisible s t) {i : Instr} (hs : exec i s = .next s')
    (ht : exec i t = .next t') : SameVisible s' t' :=
  exec_rel i h h.ph (sameVisible_initEffect h) (sameVisible_groupEffect h) (sameVisible_finalEffect h)
    (sameVisible_enterFault h .sequence) hs ht

theorem sameVisible_acceptCommand (h : SameVisible s t) {cmd : Cmd}
    (hs : acceptCommand cmd s = .next s') (ht : acceptCommand cmd t = .next t') :
    SameVisible s' t' := by
  by_cases hp : s.ph = .fault
  · rw [acceptCommand_of_fault cmd hp] at hs
    rw [acceptCommand_of_fault cmd (h.ph ▸ hp)] at ht
    rwa [← Host.Outcome.next.inj hs, ← Host.Outcome.next.inj ht]
  · cases hd : decode cmd with
    | error r =>
      rw [acceptCommand_of_reserved hd hp] at hs
      rw [acceptCommand_of_reserved hd (h.ph ▸ hp)] at ht
      rw [← Host.Outcome.next.inj hs, ← Host.Outcome.next.inj ht]
      exact sameVisible_enterFault h .reservedCmd
    | ok i =>
      rw [acceptCommand_of_decode _ hd] at hs ht
      exact sameVisible_exec h hs ht

theorem sameVisible_clockEdge (h : SameVisible s t) {e : PortEdge}
    (hs : clockEdge e s = .next s') (ht : clockEdge e t = .next t') : SameVisible s' t' := by
  have waiting := sameVisible_setPresented h (t.presented.hold e)
  cases hr : e.rst with
  | true =>
    rw [clockEdge_of_reset _ hr] at hs ht
    rw [← Host.Outcome.next.inj hs, ← Host.Outcome.next.inj ht, h.presented]
    exact sameVisible_resetRegisters waiting
  | false =>
    cases ha : e.accepts with
    | true =>
      rw [clockEdge_of_accepts _ ha] at hs ht
      rw [acceptedWord_congr e h.presented h.draws] at hs
      exact sameVisible_acceptCommand (sameVisible_endPresentation h e) hs ht
    | false =>
      rw [clockEdge_of_not_accepts _ hr ha] at hs ht
      rwa [← Host.Outcome.next.inj hs, ← Host.Outcome.next.inj ht, h.presented]

theorem sameVisible_step (h : SameVisible s t) (hs : step s = .next s') (ht : step t = .next t') :
    SameVisible s' t' := by
  cases hp : s.port with
  | nil =>
    rw [step_of_nil hp] at hs
    rw [step_of_nil (h.port ▸ hp)] at ht
    rw [← Host.Outcome.next.inj hs, ← Host.Outcome.next.inj ht]
    exact sameVisible_setPresented h .nothing
  | cons e rest =>
    rw [step_of_cons hp] at hs
    rw [step_of_cons (h.port ▸ hp)] at ht
    exact sameVisible_clockEdge (sameVisible_setPort h rest) hs ht

theorem sameVisible_run (k : Nat) (h : SameVisible s t) (hs : run k s = .next s')
    (ht : run k t = .next t') : SameVisible s' t' := by
  induction k generalizing s t with
  | zero =>
    rw [run_zero] at hs ht
    rwa [← Host.Outcome.next.inj hs, ← Host.Outcome.next.inj ht]
  | succ k ih =>
    obtain ⟨u, hu⟩ := step_next s
    obtain ⟨v, hv⟩ := step_next t
    rw [run_succ k hu] at hs
    rw [run_succ k hv] at ht
    exact ih (sameVisible_step h hu hv) hs ht

/-- HASH is shown in DONE only, where the two agree on it. -/
theorem hashPort_eq_of_sameVisible (h : SameVisible s t) : hashPort s = hashPort t := by
  by_cases hp : s.ph = .done
  · simp [hashPort, hashValid, ← h.ph, hp, h.done hp]
  · simp [hashPort, hashValid, ← h.ph, hp]

theorem outputs_eq_of_sameVisible (h : SameVisible s t) : outputs s = outputs t := by
  simp [outputs, hashPort_eq_of_sameVisible h, hashValid, faultPort, fcodePort, phasePort, h.ph,
    h.fcode]

end Sys2Proof.Safety
end

section
/-! PROOFS. Which command writes which register (statement RegisterWriters), and the independence of
the lanes (statement LanesAreIndependent). -/

namespace Sys2Proof.Machine

/-! ## One lane at a time -/

/-- Two states of one phase that agree on lane `k`. -/
def SameLane (k : Fin 4) (s t : State) : Prop := s.ph = t.ph ∧ s.x k = t.x k

section
variable {s t : State} {k : Fin 4}

/-- INIT makes each lane of the seed alone. -/
theorem sameLane_initEffect (seed : Word) : SameLane k (initEffect seed s) (initEffect seed t) := by
  refine ⟨by simp, ?_⟩
  fin_cases k <;> simp [State.x]

/-- GROUP makes each lane of its own old value and its own input word. -/
theorem sameLane_groupEffect (h : SameLane k s t) (l0 l1 l2 l3 : Word) :
    SameLane k (groupEffect l0 l1 l2 l3 s) (groupEffect l0 l1 l2 l3 t) := by
  obtain ⟨hp, hx⟩ := h
  refine ⟨by simpa using hp, ?_⟩
  fin_cases k <;> simp only [State.x] at hx ⊢ <;> simp [hx]

@[simp] theorem finalEffect_x (n : Nat) (tail : List Byte) (s : State) (k : Fin 4) :
    (finalEffect n tail s).x k = s.x k := by
  fin_cases k <;> simp [State.x]

@[simp] theorem enterFault_x (c : FaultCode) (s : State) (k : Fin 4) :
    (enterFault c s).x k = s.x k := by
  fin_cases k <;> simp [State.x]

theorem sameLane_finalEffect (h : SameLane k s t) (n : Nat) (tail : List Byte) :
    SameLane k (finalEffect n tail s) (finalEffect n tail t) := by
  simpa [SameLane] using h.2

theorem sameLane_enterFault (h : SameLane k s t) (c : FaultCode) :
    SameLane k (enterFault c s) (enterFault c t) := by
  simpa [SameLane] using h.2

theorem sameLane_exec (h : SameLane k s t) {i : Instr} {s' t' : State} (hs : exec i s = .next s')
    (ht : exec i t = .next t') : SameLane k s' t' :=
  exec_rel i h h.1 sameLane_initEffect (fun _ => sameLane_groupEffect h)
    (fun _ => sameLane_finalEffect h) (sameLane_enterFault h .sequence) hs ht

/-- FINAL writes no lane, in any phase. -/
theorem exec_final_x {n : Fin 32} {tail : List Byte} (h : exec (.final n tail) s = .next t)
    (k : Fin 4) : t.x k = s.x k := by
  rcases exec_inv h with ⟨-, rfl⟩ | ⟨-, _, hi, -⟩ | ⟨-, _, _, _, _, hi, -⟩ | ⟨-, m, bs, -, rfl⟩ |
    ⟨-, -, rfl⟩
  · rfl
  · cases hi
  · cases hi
  · exact finalEffect_x m.val bs s k
  · exact enterFault_x .sequence s k

end

end Sys2Proof.Machine
end

section
/-! PROOFS. The phase table of R37 and the outputs of every phase (statement PhaseTable), and the one
writer of HASH (statement HashIsWrittenByFinalOnly). -/

namespace Sys2Proof.Machine

open Sys2Proof.Claims

/-! ## A step by the edge at the port -/

/-- The statements' `taken` is what the step makes of the model's own fields. -/
theorem endPresentation_setPort_eq_taken (e : PortEdge) (rest : List PortEdge) (s : State) :
    endPresentation e (setPort rest s) = taken e rest s := by
  apply State.ext <;> simp [taken, endPresentation_draws]

section
variable {s : State} {e : PortEdge} {rest : List PortEdge} (hp : s.port = e :: rest)
include hp

theorem step_of_reset (h : e.rst = true) : step s =
    .next (resetRegisters (setPresented (s.presented.hold e) (setPort rest s))) := by
  rw [step_of_cons hp, clockEdge_of_reset _ h, setPort_presented]

theorem step_of_not_accepts (hr : e.rst = false) (ha : e.accepts = false) :
    step s = .next (setPresented (s.presented.hold e) (setPort rest s)) := by
  rw [step_of_cons hp, clockEdge_of_not_accepts _ hr ha, setPort_presented]

theorem step_of_accepts (ha : e.accepts = true) :
    step s = acceptCommand (acceptedWord e s) (taken e rest s) := by
  rw [step_of_cons hp, clockEdge_of_accepts _ ha, acceptedWord_setPort,
    endPresentation_setPort_eq_taken]

end

/-! ## The phase table -/

/-- The table for a command, by the five outcomes of `exec`. -/
theorem exec_phaseTable {i : Instr} {s t : State} (h : exec i s = .next t) :
    (t.ph, t.fcode) = phaseTable s.ph (some i) s.fcode := by
  rcases exec_inv h with ⟨hp, rfl⟩ | ⟨hp, seed, rfl, rfl⟩ | ⟨hp, l0, l1, l2, l3, rfl, rfl⟩ |
    ⟨hp, n, tail, rfl, rfl⟩ | ⟨hp, hi, rfl⟩
  · simp [phaseTable, hp]
  · cases hq : s.ph <;> simp_all [phaseTable]
  · simp [phaseTable, hp]
  · simp [phaseTable, hp]
  · cases i with
    | init seed => exact absurd rfl (hi seed)
    | group l0 l1 l2 l3 => rcases hp with hp | hp <;> simp [phaseTable, hp]
    | final n tail => rcases hp with hp | hp <;> simp [phaseTable, hp]

/-- The table for a reserved word. -/
theorem phaseTable_none {p : Phase} (hp : p ≠ .fault) (k : FaultCode) :
    phaseTable p none k = (.fault, .reservedCmd) := by
  cases p <;> simp_all [phaseTable]

/-- The table for any accepted word. -/
theorem acceptCommand_phaseTable {cmd : Cmd} {s t : State} (h : acceptCommand cmd s = .next t) :
    (t.ph, t.fcode) = phaseTable s.ph (decode cmd).toOption s.fcode := by
  rcases acceptCommand_cases cmd s with ⟨hp, ha⟩ | ⟨hp, ⟨r, hd⟩, ha⟩ | ⟨-, i, hd, ha⟩
  · rw [← Host.Outcome.next.inj (ha.symm.trans h)]
    simp [phaseTable, hp]
  · rw [← Host.Outcome.next.inj (ha.symm.trans h), hd]
    simp [Except.toOption, phaseTable_none hp]
  · rw [hd]
    exact exec_phaseTable (ha.symm.trans h)

/-! ## The outputs -/

/-- The status outputs are functions of PH (R36, R39). -/
theorem statusPorts_eq (s : State) : (phasePort s, hashValid s, faultPort s) = phaseOutputs s.ph := by
  unfold phasePort hashValid faultPort
  cases s.ph <;> rfl

theorem fcodePort_eq (s : State) : fcodePort s = codeOutput s.fcode := by
  unfold fcodePort
  cases s.fcode <;> rfl

/-- The `hash` port carries HASH in DONE and is absent otherwise (R35). -/
theorem hashPort_eq (s : State) : hashPort s = if s.ph = .done then some s.hash else none := by
  simp [hashPort, hashValid]

/-! ## HASH -/

theorem exec_hash {i : Instr} {s t : State} (h : exec i s = .next t) :
    t.hash = s.hash ∨ s.ph = .absorb ∧ t.ph = .done ∧ ∃ n tail, i = .final n tail := by
  rcases exec_inv h with ⟨-, rfl⟩ | ⟨-, _, -, rfl⟩ | ⟨-, _, _, _, _, -, rfl⟩ |
    ⟨hp, n, tail, hi, rfl⟩ | ⟨-, -, rfl⟩
  · exact .inl rfl
  · exact .inl (by simp)
  · exact .inl (by simp)
  · exact .inr ⟨hp, by simp, n, tail, hi⟩
  · exact .inl (by simp)

/-- A step without reset keeps HASH, or executes a FINAL. -/
theorem step_hash {s t : State} {e : PortEdge} {rest : List PortEdge} (hp : s.port = e :: rest)
    (hr : e.rst = false) (h : step s = .next t) :
    t.hash = s.hash ∨ s.ph = .absorb ∧ t.ph = .done ∧ e.accepts = true ∧
      ∃ n tail, decode (acceptedWord e s) = .ok (.final n tail) := by
  cases ha : e.accepts with
  | false =>
    rw [step_of_not_accepts hp hr ha] at h
    rw [← Host.Outcome.next.inj h]
    exact .inl (by simp)
  | true =>
    rw [step_of_accepts hp ha] at h
    rcases acceptCommand_cases (acceptedWord e s) (taken e rest s) with ⟨-, hc⟩ | ⟨-, -, hc⟩ |
      ⟨-, i, hd, hc⟩
    · rw [← Host.Outcome.next.inj (hc.symm.trans h)]
      exact .inl (by simp [taken])
    · rw [← Host.Outcome.next.inj (hc.symm.trans h)]
      exact .inl (by simp [taken])
    · rcases exec_hash (hc.symm.trans h) with hk | ⟨hs, ht, n, tail, rfl⟩
      · exact .inl hk
      · exact .inr ⟨hs, ht, rfl, n, tail, hd⟩

end Sys2Proof.Machine
end

section
/-! PROOFS. A host that holds each word until it is accepted (R40, R248 H3; statement
HeldCommandsAreAcceptedAsOffered): a waiting edge leaves no trace, neither in the words offered nor in
the run. -/

namespace Sys2Proof.Safety

open Sys2Proof.Machine Sys2Proof.Claims

/-! ## Such a host's edges -/

/-- Edges without reset, at which each waiting word is presented again, none left waiting at the end. -/
structure HeldToEnd (edges : List PortEdge) : Prop where
  held : commandHeld edges = true
  no_reset : ∀ e ∈ edges, e.rst = false
  last_accepted : ∀ e, edges.getLast? = some e → e.cmdValid = true → e.cmdReady = true

theorem commandHeld_cons_cons (e f : PortEdge) (rest : List PortEdge) :
    commandHeld (e :: f :: rest) =
      ((!e.cmdValid || e.accepts || (f.cmdValid && f.cmd == e.cmd)) && commandHeld (f :: rest)) := rfl

theorem HeldToEnd.tail {e : PortEdge} {rest : List PortEdge} (h : HeldToEnd (e :: rest)) :
    HeldToEnd rest where
  held := by
    cases rest with
    | nil => rfl
    | cons f rest =>
      have hh := h.held
      rw [commandHeld_cons_cons, Bool.and_eq_true] at hh
      exact hh.2
  no_reset := fun f hf => h.no_reset f (List.mem_cons_of_mem e hf)
  last_accepted := by
    cases rest with
    | nil => simp
    | cons f rest => simpa using h.last_accepted

/-- A word that waits at an edge is presented again at the next, unchanged. -/
theorem HeldToEnd.next_of_waiting {e : PortEdge} {rest : List PortEdge} (h : HeldToEnd (e :: rest))
    (hv : e.cmdValid = true) (hr : e.cmdReady = false) :
    ∃ f rest', rest = f :: rest' ∧ f.cmdValid = true ∧ f.cmd = e.cmd := by
  cases rest with
  | nil =>
    have hlast := h.last_accepted e rfl hv
    rw [hr] at hlast
    exact Bool.noConfusion hlast
  | cons f rest =>
    have hh := h.held
    simp only [commandHeld_cons_cons, PortEdge.accepts, hv, hr, Bool.not_true, Bool.and_false,
      Bool.or_self, Bool.false_or, Bool.and_eq_true, beq_iff_eq] at hh
    exact ⟨f, rest, rfl, hh.1⟩

/-! ## The words accepted and the words offered -/

section
variable {e : PortEdge} (rest : List PortEdge)

theorem accepted_cons_of_accepts (h : e.accepts = true) :
    accepted (e :: rest) = e.cmd :: accepted rest := by
  simp [accepted, h]

theorem accepted_cons_of_not_accepts (h : e.accepts = false) : accepted (e :: rest) = accepted rest := by
  simp [accepted, h]

theorem offered_cons_of_not_valid (h : e.cmdValid = false) :
    offered false (e :: rest) = offered false rest := by
  simp [offered, h]

theorem offered_cons_of_ready (hv : e.cmdValid = true) (hr : e.cmdReady = true) :
    offered false (e :: rest) = e.cmd :: offered false rest := by
  simp [offered, hv, hr]

/-- A word that waits is offered once: as well at the next edge as at this one. -/
theorem offered_cons_of_waiting {f : PortEdge} (hv : e.cmdValid = true) (hr : e.cmdReady = false)
    (hfv : f.cmdValid = true) (hf : f.cmd = e.cmd) :
    offered false (e :: f :: rest) = offered false (f :: rest) := by
  simp [offered, hv, hr, hfv, hf]

end

theorem accepted_eq_offered {edges : List PortEdge} (h : HeldToEnd edges) :
    accepted edges = offered false edges := by
  induction edges with
  | nil => rfl
  | cons e rest ih =>
    have ih := ih h.tail
    cases hv : e.cmdValid with
    | false =>
      rw [accepted_cons_of_not_accepts rest (PortEdge.not_accepts_of_not_valid hv), ih,
        offered_cons_of_not_valid rest hv]
    | true =>
      cases hr : e.cmdReady with
      | true =>
        have ha := PortEdge.accepts_of_ready (h.no_reset e List.mem_cons_self) hv hr
        rw [accepted_cons_of_accepts rest ha, ih, offered_cons_of_ready rest hv hr]
      | false =>
        obtain ⟨f, rest', rfl, hfv, hf⟩ := h.next_of_waiting hv hr
        rw [accepted_cons_of_not_accepts _ (PortEdge.not_accepts_of_not_ready hr), ih,
          offered_cons_of_waiting rest' hv hr hfv hf]

/-! ## The run -/

/-- What stands presented before the edges is nothing, or the word that the first of them presents
again. -/
def PresentedAgain (p : Presented) (edges : List PortEdge) : Prop :=
  p = .nothing ∨ ∃ e rest, edges = e :: rest ∧ e.cmdValid = true ∧ p = .steady e.cmd

theorem PresentedAgain.hold {p : Presented} {e : PortEdge} {rest : List PortEdge}
    (h : PresentedAgain p (e :: rest)) : p = .nothing ∨ p = .steady e.cmd := by
  rcases h with h | ⟨f, fs, heq, -, h⟩
  · exact .inl h
  · rw [List.cons.injEq] at heq
    exact .inr (heq.1 ▸ h)

/-- The run of a host that holds its words is that of the words accepted, back to back: an edge at
which nothing is presented or a word waits changes what stands presented only. -/
theorem runEdges_eq_acceptWords {edges : List PortEdge} (h : HeldToEnd edges) {s : State}
    (hp : PresentedAgain s.presented edges) :
    runEdges edges s = runEdges (acceptWords (accepted edges)) (setPresented .nothing s) := by
  induction edges generalizing s with
  | nil =>
    rcases hp with hp | ⟨e, rest, heq, -⟩
    · rw [← hp, setPresented_self]
      rfl
    · cases heq
  | cons e rest ih =>
    have hrst : e.rst = false := h.no_reset e List.mem_cons_self
    have hhold := hp.hold
    cases hv : e.cmdValid with
    | false =>
      have ha := PortEdge.not_accepts_of_not_valid hv
      rw [runEdges_cons rest (clockEdge_of_not_accepts s hrst ha), accepted_cons_of_not_accepts rest ha,
        Presented.hold_of_not_valid _ hv, ih h.tail (.inl rfl), setPresented_setPresented]
    | true =>
      cases hr : e.cmdReady with
      | true =>
        have ha := PortEdge.accepts_of_ready hrst hv hr
        obtain ⟨u, hu⟩ := clockEdge_next e s
        have hup : u.presented = .nothing := presented_of_clockEdge_accepts ha hu
        have hself : setPresented .nothing u = u := by rw [← hup, setPresented_self]
        have hu' := (clockEdge_of_accepts_held ha hhold).symm.trans hu
        rw [runEdges_cons rest hu, ih h.tail (.inl hup), hself, accepted_cons_of_accepts rest ha]
        exact (runEdges_cons _ hu').symm
      | false =>
        have ha := PortEdge.not_accepts_of_not_ready hr
        obtain ⟨f, rest', rfl, hfv, hf⟩ := h.next_of_waiting hv hr
        have hagain : PresentedAgain (.steady e.cmd) (f :: rest') :=
          .inr ⟨f, rest', rfl, hfv, by rw [hf]⟩
        rw [runEdges_cons _ (clockEdge_of_not_accepts s hrst ha), accepted_cons_of_not_accepts _ ha,
          hold_of_valid hhold hv, ih h.tail hagain, setPresented_setPresented]

end Sys2Proof.Safety
end

section
/-! PROOFS. The words of well-formed commands decode to them (R93, R94, R95), as runs of commands need
it. -/

namespace Sys2Proof

/-- The four words of a packed payload (R93, R94). -/
theorem payWord_packWords (h : BitVec 8) (l0 l1 l2 l3 : Word) :
    payWord (packCmd h (packWords l0 l1 l2 l3)) 0 = l0 ∧
    payWord (packCmd h (packWords l0 l1 l2 l3)) 1 = l1 ∧
    payWord (packCmd h (packWords l0 l1 l2 l3)) 2 = l2 ∧
    payWord (packCmd h (packWords l0 l1 l2 l3)) 3 = l3 := by
  refine ⟨?_, ?_, ?_, ?_⟩ <;> rw [payWord_packCmd _ _ (by decide)] <;> ext i hi
  · simp [packWords_getLsbD, hi]
  · simp [packWords_getLsbD, hi]
  · simp [packWords_getLsbD, hi, show ¬ 128 + i < 64 by omega, show 128 + i - 64 = 64 + i by omega]
  · simp [packWords_getLsbD, show ¬ 192 + i < 64 by omega, show 192 + i - 64 = 128 + i by omega,
      show ¬ 128 + i < 64 by omega, show 128 + i - 64 = 64 + i by omega, BitVec.getLsbD_eq_getElem hi]

theorem decode_encode_init (seed : Word) :
    decode (encode (.init seed)) = .ok (.init seed) := by
  have hseed := (payWord_packWords (packHeader 1#3 0#5) seed 0 0 0).1
  rw [decode, encode, encodeHeader, encodePayload, opOf_packHeader, nOf_packHeader, hseed]
  rfl

theorem decode_encode_group (l0 l1 l2 l3 : Word) :
    decode (encode (.group l0 l1 l2 l3)) = .ok (.group l0 l1 l2 l3) := by
  obtain ⟨h0, h1, h2, h3⟩ := payWord_packWords (packHeader 2#3 0#5) l0 l1 l2 l3
  rw [decode, encode, encodeHeader, encodePayload, opOf_packHeader, nOf_packHeader, h0, h1, h2, h3]
  rfl

/-- The payload bytes of a packed list of at most 32 bytes (R92). -/
theorem payBytes_packPayload (h : BitVec 8) {bytes : List Byte} (hlen : bytes.length ≤ 32) :
    payBytes (packCmd h (packPayload bytes)) bytes.length = bytes := by
  apply List.ext_getElem
  · simp
  · intro i h1 h2
    simp only [payBytes, List.getElem_map, List.getElem_range]
    rw [payByte_packCmd _ _ (by omega), packPayload_byte _ (by omega), List.getD_eq_getElem _ _ h2]

theorem decode_encode_final {n : Fin 32} {tail : List Byte} (h : tail.length = n.val) :
    decode (encode (.final n tail)) = .ok (.final n tail) := by
  have hn : (BitVec.ofNat 5 n.val).toNat = tail.length := by
    rw [BitVec.toNat_ofNat, h]
    omega
  have hfin : Fin.ofNat 32 tail.length = n := Fin.ext (by rw [Fin.val_ofNat]; omega)
  have htail := payBytes_packPayload (packHeader 3#3 (BitVec.ofNat 5 n.val)) (bytes := tail) (by omega)
  rw [decode, encode, encodeHeader, encodePayload, opOf_packHeader, nOf_packHeader, hn, htail, hfin]
  rfl

end Sys2Proof
end

section
/-! PROOFS. INIT and any number of groups (R33, R162; statement LenCountsMessageBytes). -/

namespace Sys2Proof.Safety

open Sys2Proof.Machine Sys2Proof.Claims

/-! ## Runs of commands -/

/-- One command, then the rest, from any port. -/
theorem runCommands_cons_exec {i : Instr} (is : List Instr) {s t : State}
    (hw : decode (encode i) = .ok i) (h : exec i s = .next t) :
    runCommands (i :: is) s = runCommands is t := by
  rw [runCommands_cons is hw (exec_setPresented i .nothing h)]
  unfold runCommands
  rw [setPresented_setPresented]

/-- GROUP on the four words of a group; a list of groups is absorbed by `List.foldl`. -/
def absorbGroup (s : State) (g : Words) : State := groupEffect g.l0 g.l1 g.l2 g.l3 s

@[simp] theorem absorbGroup_ph (s : State) (g : Words) : (absorbGroup s g).ph = s.ph :=
  groupEffect_ph s g.l0 g.l1 g.l2 g.l3

@[simp] theorem absorbGroup_len (s : State) (g : Words) : (absorbGroup s g).len = s.len + 32 :=
  groupEffect_len s g.l0 g.l1 g.l2 g.l3

@[simp] theorem foldl_absorbGroup_ph (gs : List Words) (s : State) :
    (gs.foldl absorbGroup s).ph = s.ph := by
  induction gs generalizing s with
  | nil => simp
  | cons g gs ih => simp [ih]

/-- LEN counts 32 bytes for each group (R33). -/
theorem foldl_absorbGroup_len (gs : List Words) (s : State) :
    (gs.foldl absorbGroup s).len = s.len + BitVec.ofNat 64 (32 * gs.length) := by
  induction gs generalizing s with
  | nil => simp
  | cons g gs ih =>
    rw [List.foldl_cons, ih, absorbGroup_len, List.length_cons, Nat.mul_succ, BitVec.ofNat_add,
      BitVec.add_assoc]
    exact congrArg (s.len + ·) (BitVec.add_comm ..)

/-- In ABSORB the groups of a run are absorbed, then the rest runs. -/
theorem runCommands_groups_append (gs : List Words) (is : List Instr) {s : State}
    (hp : s.ph = .absorb) :
    runCommands ((gs.map fun g => .group g.l0 g.l1 g.l2 g.l3) ++ is) s =
      runCommands is (gs.foldl absorbGroup s) := by
  induction gs generalizing s with
  | nil => simp
  | cons g gs ih =>
    have hg : exec (.group g.l0 g.l1 g.l2 g.l3) s = .next (absorbGroup s g) :=
      whenAbsorbing_of_absorb _ hp
    rw [List.map_cons, List.cons_append, runCommands_cons_exec _ (decode_encode_group ..) hg,
      ih (by simpa using hp), List.foldl_cons]

/-- INIT and groups from any phase but FAULT, then the rest. -/
theorem runCommands_opened_append (seed : Word) (gs : List Words) (is : List Instr) {s : State}
    (hp : s.ph ≠ .fault) :
    runCommands (opened seed gs ++ is) s = runCommands is (gs.foldl absorbGroup (initEffect seed s)) := by
  have hi : exec (.init seed) s = .next (initEffect seed s) := unlessFault_of_ne _ hp
  rw [opened, List.cons_append, runCommands_cons_exec _ (decode_encode_init seed) hi,
    runCommands_groups_append gs is (initEffect_ph s seed)]

/-- FINAL as the last command, in ABSORB. -/
theorem runCommands_final {n : Fin 32} {tail : List Byte} (h : tail.length = n.val) {s : State}
    (hp : s.ph = .absorb) : runCommands [.final n tail] s =
      .next (setPort [] (setPresented .nothing (finalEffect n.val tail s))) := by
  have hf : exec (.final n tail) s = .next (finalEffect n.val tail s) := whenAbsorbing_of_absorb _ hp
  rw [runCommands_cons_exec [] (decode_encode_final h) hf, runCommands_nil]

end Sys2Proof.Safety
end

section
/-! PROOFS. The statements of spec/10_state.md settled, each from the lemmas of the parts above. -/

namespace Sys2Proof.Proofs

open Sys2Proof.Machine Sys2Proof.Safety Sys2Proof.Claims

/-- Settles O33, by the cases of a step: a reset clears FCODE, an edge without a command and a dropped
word touch no register, a reserved word sets FCODE with FAULT, and a command keeps the invariant. -/
theorem stepKeepsInvariant : Obligations.StepKeepsInvariant := by
  unfold Obligations.StepKeepsInvariant
  intro s t hi h
  rcases step_inv h with ⟨-, rfl⟩ | ⟨e, rest, -, ⟨-, rfl⟩ | ⟨-, -, rfl⟩ | ⟨-, -, rfl⟩ |
    ⟨-, -, -, rfl⟩ | ⟨-, -, i, -, he⟩⟩
  · exact inv_congr hi (by simp) (by simp) (by simp)
  · exact inv_resetRegisters _
  · exact inv_congr hi (by simp) (by simp) (by simp)
  · exact inv_congr hi (by simp) (by simp) (by simp)
  · exact inv_enterFault (by decide) (by decide) _
  · have hi' : Inv (endPresentation e (setPort rest s)) :=
      inv_congr hi (by simp) (by simp) (by simp)
    exact inv_exec hi' he

/-- Settles O36: agreement on what can be read is kept by every step, and decides the outputs. -/
theorem unspecifiedRegistersNeverShow : Obligations.UnspecifiedRegistersNeverShow := by
  unfold Obligations.UnspecifiedRegistersNeverShow
  intro k s t s' t' h hs ht
  have h' := sameVisible_run k h hs ht
  exact ⟨outputs_eq_of_sameVisible h', h'⟩

/-- Settles O20, by the five outcomes of a command: dropped, INIT, GROUP, FINAL, or the SEQUENCE
fault. -/
theorem registerWriters : Obligations.RegisterWriters := by
  unfold Obligations.RegisterWriters
  intro i s t h
  rcases exec_inv h with ⟨-, rfl⟩ | ⟨hp, seed, rfl, rfl⟩ | ⟨hp, l0, l1, l2, l3, rfl, rfl⟩ |
    ⟨hp, n, tail, rfl, rfl⟩ | ⟨hp, hi, rfl⟩
  · simp
  · simp [hp]
  · simp [hp]
  · simp [hp]
  · simp [hp, hi]

/-- Settles O21: agreement on a phase and one lane is kept by every command. -/
theorem lanesAreIndependent : Obligations.LanesAreIndependent := by
  unfold Obligations.LanesAreIndependent
  refine ⟨fun s => ⟨rfl, rfl, rfl, rfl⟩, ?_, ?_⟩
  · intro i k s t s' t' hp hx hs ht
    exact (sameLane_exec ⟨hp, hx⟩ hs ht).2
  · intro n tail k s t h
    exact exec_final_x h k

/-- Settles O24: an accepted word follows the table by the cases of `acceptCommand`, and each output
by the cases of PH or FCODE. -/
theorem phaseTable : Obligations.PhaseTable := by
  unfold Obligations.PhaseTable
  refine ⟨fun s e rest hp => ⟨fun ha => ?_, fun hr => ?_⟩, fun s => ⟨?_, ?_, ?_⟩⟩
  · obtain ⟨t, ht⟩ := step_next s
    have hacc : acceptCommand (acceptedWord e s) (taken e rest s) = .next t :=
      (step_of_accepts hp ha).symm.trans ht
    have htable := acceptCommand_phaseTable hacc
    refine ⟨t, ht, htable, fun hf => ?_⟩
    exact Host.Outcome.next.inj (hacc.symm.trans (acceptCommand_of_fault _ hf))
  · exact ⟨_, step_of_reset hp hr, by simp⟩
  · exact statusPorts_eq s
  · exact fcodePort_eq s
  · simp [outputs, hashPort_eq]

/-- Settles O31, by induction on the edges: a waiting edge leaves no trace in the words offered nor in
the run. -/
theorem heldCommandsAreAcceptedAsOffered : Obligations.HeldCommandsAreAcceptedAsOffered := by
  unfold Obligations.HeldCommandsAreAcceptedAsOffered
  intro edges hheld hrst hlast
  have h : HeldToEnd edges := ⟨hheld, hrst, hlast⟩
  refine ⟨accepted_eq_offered h, fun s hs => ?_⟩
  rw [runEdges_eq_acceptWords h (.inl hs), accepted_eq_offered h, ← hs, setPresented_self]

/-- Settles O35: a step keeps HASH or executes a FINAL in ABSORB, and the port shows HASH by PH. -/
theorem hashIsWrittenByFinalOnly : Obligations.HashIsWrittenByFinalOnly := by
  unfold Obligations.HashIsWrittenByFinalOnly
  intro s t e rest hp hr h
  refine ⟨fun hne => ?_, fun hdone => ?_, fun v => ?_, ?_⟩
  · exact (step_hash hp hr h).resolve_left hne
  · rcases step_hash hp hr h with hk | ⟨habsorb, -⟩
    · exact hk
    · rw [hdone] at habsorb
      exact Phase.noConfusion habsorb
  · simp [hashPort_eq]
  · simp [hashPort_eq]

/-- Settles O40: INIT clears LEN, each group adds 32 and FINAL adds its tail length, modulo 2^64. -/
theorem lenCountsMessageBytes : Obligations.LenCountsMessageBytes := by
  unfold Obligations.LenCountsMessageBytes
  intro seed gs n tail s hp hn
  have hph : (gs.foldl absorbGroup (initEffect seed s)).ph = .absorb := by simp
  have hlen : (gs.foldl absorbGroup (initEffect seed s)).len = BitVec.ofNat 64 (32 * gs.length) := by
    simp [foldl_absorbGroup_len]
  have hopen := runCommands_opened_append seed gs [] hp
  rw [List.append_nil, runCommands_nil] at hopen
  have hfinal := runCommands_opened_append seed gs [.final n tail] hp
  rw [runCommands_final hn hph] at hfinal
  refine ⟨⟨_, hopen, by simp, ?_⟩, _, hfinal, by simp, ?_⟩
  · simp [hlen]
  · simp [hlen, ← BitVec.ofNat_add]

/-- Settles O34: the reset state is IDLE with FCODE clear, and its outputs compute. -/
theorem resetMeetsInvariant : Obligations.ResetMeetsInvariant := by
  unfold Obligations.ResetMeetsInvariant
  have hp : State.reset.ph = .idle := rfl
  have hk : State.reset.fcode = .noFault := rfl
  refine ⟨inv_of_noFault (by simp [hp]) hk (by simp [hp]), ?_, ?_, ?_⟩
  · simp [hp, Phase.bits]
  · simp [hk, FaultCode.bits]
  · simp [outputs, hashPort, hashValid, faultPort, fcodePort, phasePort, hp, hk, Phase.bits,
      FaultCode.bits]

end Sys2Proof.Proofs
end

section
/-! PROOFS. Byte reads and payload bytes, each as a rule of its own: a little-endian read as a sum and
byte by byte (R62), and a payload word by the payload bytes it covers (R92, R94). -/

namespace Sys2Proof

/-! ## Little-endian reads -/

/-- A little-endian number as the sum of R62. -/
theorem leNat_eq_sum (bs : List Byte) :
    leNat bs = ∑ i ∈ Finset.range bs.length, 2 ^ (8 * i) * (bs.getD i 0).toNat := by
  induction bs with
  | nil => simp
  | cons b bs ih =>
    have hstep (i : Nat) : 2 ^ (8 * (i + 1)) * ((b :: bs).getD (i + 1) 0).toNat =
        256 * (2 ^ (8 * i) * (bs.getD i 0).toNat) := by
      rw [List.getD_cons_succ, Nat.mul_succ, Nat.pow_add]
      ring
    rw [leNat_cons, ih, List.length_cons, Finset.sum_range_succ',
      Finset.sum_congr rfl fun i _ => hstep i, ← Finset.mul_sum]
    simp [Nat.add_comm]

/-- Byte `i` of the bytes a read covers. -/
theorem getD_take_drop (m : List Byte) (q : Nat) {w i : Nat} (hi : i < w) :
    ((m.drop q).take w).getD i 0 = m.getD (q + i) 0 := by
  simp [List.getD_eq_getElem?_getD, List.getElem?_take_of_lt hi]

/-- A byte inside a message, read from a later start. -/
theorem getElem?_eq_getD_drop (m : List Byte) {q i : Nat} (h : q + i < m.length) :
    m[q + i]? = some ((m.drop q).getD i 0) := by
  simp [List.getD_eq_getElem?_getD, h]

/-- Byte `k` of a read is byte `off + k` of the bytes read (R62). -/
theorem Machine.payRead_byte (pay : List Byte) (off : Nat) {w k : Nat} (hk : k < w) :
    (Machine.payRead pay off w).extractLsb' (8 * k) 8 = pay.getD (off + k) 0 := by
  apply BitVec.eq_of_toNat_eq
  rw [BitVec.extractLsb'_toNat, Machine.payRead_toNat, Nat.shiftRight_eq_div_pow,
    ← getD_take_drop pay off hk, ← leNat_byte]

/-! ## Payload words and payload bytes -/

/-- Byte `k` of payload word `j` is `PAY[8j + k]` (R92, R94). -/
theorem payWord_byte (w : Cmd) (j : Nat) {k : Nat} (hk : k < 8) :
    (payWord w j).extractLsb' (8 * k) 8 = payByte w (8 * j + k) := by
  ext b hb
  simp [payWord, payByte, show 8 * k + b < 64 by omega,
    show 64 * j + (8 * k + b) = 8 * (8 * j + k) + b by omega]

/-- Eight bytes determine a word. -/
theorem word_eq_of_bytes {x y : Word}
    (h : ∀ k < 8, x.extractLsb' (8 * k) 8 = y.extractLsb' (8 * k) 8) : x = y := by
  apply BitVec.eq_of_getLsbD_eq
  intro i hi
  have hbit := congrArg (BitVec.getLsbD · (i % 8)) (h (i / 8) (by omega))
  simpa [show i % 8 < 8 by omega, show 8 * (i / 8) + i % 8 = i by omega] using hbit

/-- A payload word depends only on the eight bytes it covers. -/
theorem payWord_congr {w1 w2 : Cmd} {j : Nat}
    (h : ∀ k < 8, payByte w1 (8 * j + k) = payByte w2 (8 * j + k)) : payWord w1 j = payWord w2 j := by
  apply word_eq_of_bytes
  intro k hk
  rw [payWord_byte w1 j hk, payWord_byte w2 j hk, h k hk]

/-- A run of payload bytes depends only on those bytes. -/
theorem payBytes_congr {w1 w2 : Cmd} {n : Nat} (h : ∀ i < n, payByte w1 i = payByte w2 i) :
    payBytes w1 n = payBytes w2 n :=
  List.map_congr_left fun i hi => h i (List.mem_range.mp hi)

end Sys2Proof
end

section
/-! PROOFS. The decoder reads the header and the payload bytes of the command it selects, and nothing
else (R61, R67; statement UnreadPayloadHasNoEffect). -/

namespace Sys2Proof

open Sys2Proof.Claims

/-! ## The bytes a header says its command reads -/

theorem bytesRead_init : bytesRead (packHeader 1#3 0#5) = 8 := by decide

theorem bytesRead_group : bytesRead (packHeader 2#3 0#5) = 32 := by decide

theorem bytesRead_final (n : BitVec 5) : bytesRead (packHeader 3#3 n) = n.toNat := by
  revert n
  decide

/-! ## The fields of the header -/

section
variable {w1 w2 : Cmd}

theorem opOf_congr (h : headerOf w1 = headerOf w2) : opOf w1 = opOf w2 := by
  rw [← packCmd_fields w1, ← packCmd_fields w2, opOf_packCmd, opOf_packCmd, h]

theorem nOf_congr (h : headerOf w1 = headerOf w2) : nOf w1 = nOf w2 := by
  rw [← packCmd_fields w1, ← packCmd_fields w2, nOf_packCmd, nOf_packCmd, h]

/-- Words that agree on the header and on the bytes its command reads decode alike, reserved words
with the same reason (R67). -/
theorem decode_congr (hh : headerOf w1 = headerOf w2)
    (hb : ∀ i < bytesRead (headerOf w1), payByte w1 i = payByte w2 i) : decode w1 = decode w2 := by
  have hop := opOf_congr hh
  have hn := nOf_congr hh
  rw [headerOf_eq w1] at hb
  unfold decode
  rw [← hop, ← hn]
  split
  · next h1 =>
    split
    · next h0 =>
      rw [h1, h0, bytesRead_init] at hb
      rw [payWord_congr fun k hk => hb (8 * 0 + k) (by omega)]
    · rfl
  · split
    · next h2 =>
      split
      · next h0 =>
        rw [h2, h0, bytesRead_group] at hb
        have hword {j : Nat} (hj : j < 4) : payWord w1 j = payWord w2 j :=
          payWord_congr fun k hk => hb (8 * j + k) (by omega)
        rw [hword (j := 0) (by omega), hword (j := 1) (by omega), hword (j := 2) (by omega),
          hword (j := 3) (by omega)]
      · rfl
    · split
      · next h3 =>
        rw [h3, bytesRead_final] at hb
        rw [payBytes_congr hb]
      · rfl

end

end Sys2Proof

namespace Sys2Proof.Machine

/-- An accepted word acts through what it decodes to. -/
theorem acceptCommand_congr {w1 w2 : Cmd} (s : State) (h : decode w1 = decode w2) :
    acceptCommand w1 s = acceptCommand w2 s := by
  unfold acceptCommand
  rw [h]

end Sys2Proof.Machine
end

section
/-! PROOFS. The words of a message's commands, by header and payload byte (R63; statement
CommandsCarryTheMessage). -/

namespace Sys2Proof

/-! ## The words of the three commands -/

@[simp] theorem headerOf_encode (i : Instr) : headerOf (encode i) = encodeHeader i :=
  headerOf_packCmd _ _

/-- The payload bytes of a word in format G are the bytes of its four words (R93). -/
theorem payByte_encode_group (l0 l1 l2 l3 : Word) {k : Nat} (hk : k < 8) :
    payByte (encode (.group l0 l1 l2 l3)) (0 + k) = l0.extractLsb' (8 * k) 8 ∧
    payByte (encode (.group l0 l1 l2 l3)) (8 + k) = l1.extractLsb' (8 * k) 8 ∧
    payByte (encode (.group l0 l1 l2 l3)) (16 + k) = l2.extractLsb' (8 * k) 8 ∧
    payByte (encode (.group l0 l1 l2 l3)) (24 + k) = l3.extractLsb' (8 * k) 8 := by
  obtain ⟨h0, h1, h2, h3⟩ := payWord_packWords (packHeader 2#3 0#5) l0 l1 l2 l3
  have hbyte (j : Nat) := (payWord_byte (encode (.group l0 l1 l2 l3)) j hk).symm
  refine ⟨?_, ?_, ?_, ?_⟩
  · exact (hbyte 0).trans (congrArg _ h0)
  · exact (hbyte 1).trans (congrArg _ h1)
  · exact (hbyte 2).trans (congrArg _ h2)
  · exact (hbyte 3).trans (congrArg _ h3)

/-- The payload of a tail is its bytes, then zeros (R93, R98). -/
theorem payByte_encode_final (n : Fin 32) (tail : List Byte) {i : Nat} (hi : i < 32) :
    payByte (encode (.final n tail)) i = tail.getD i 0 :=
  (payByte_packCmd _ _ hi).trans (packPayload_byte tail hi)

/-- FINAL's headers are 0x60 to 0x7F (R95). -/
theorem packHeader_final_toNat (n : BitVec 5) : (packHeader 3#3 n).toNat = 0x60 + n.toNat := by
  revert n
  decide

end Sys2Proof

namespace Sys2Proof.Machine

/-! ## The commands of a message -/

@[simp] theorem groupsOf_length (bytes : List Byte) : (groupsOf bytes).length = bytes.length / 32 := by
  simp [groupsOf]

@[simp] theorem groupsOf_getElem (bytes : List Byte) {j : Nat} (hj : j < (groupsOf bytes).length) :
    (groupsOf bytes)[j] = groupOf (bytes.drop (32 * j)) := by
  simp [groupsOf]

/-- `PAY[i]` of a group's word is byte `i` of the group (R63, R64). -/
theorem payByte_encode_groupOf (bytes : List Byte) {i : Nat} (hi : i < 32) :
    payByte (encode (groupOf bytes)) i = bytes.getD i 0 := by
  have hk : i % 8 < 8 := by omega
  obtain ⟨h0, h1, h2, h3⟩ := payByte_encode_group (payRead bytes 0 8) (payRead bytes 8 8)
    (payRead bytes 16 8) (payRead bytes 24 8) hk
  have hread (off : Nat) := payRead_byte bytes off hk
  have hcases : i = 0 + i % 8 ∨ i = 8 + i % 8 ∨ i = 16 + i % 8 ∨ i = 24 + i % 8 := by omega
  unfold groupOf
  rcases hcases with h | h | h | h <;> rw [h]
  · rw [h0, hread]
  · rw [h1, hread]
  · rw [h2, hread]
  · rw [h3, hread]

theorem headerOf_encode_finalOf (tail : List Byte) (h : tail.length < 32) :
    (headerOf (encode (finalOf tail))).toNat = 0x60 + tail.length := by
  rw [headerOf_encode, finalOf, encodeHeader, packHeader_final_toNat, BitVec.toNat_ofNat,
    Fin.val_ofNat]
  omega

end Sys2Proof.Machine
end

section
/-! PROOFS. The statements of spec/20_memory.md settled, each from the lemmas of the parts above. -/

namespace Sys2Proof.Proofs

open Sys2Proof.Machine

/-- Settles O7: a read is the little-endian number of the bytes it covers, and that is their sum. -/
theorem payReadIsLittleEndian : Obligations.PayReadIsLittleEndian := by
  unfold Obligations.PayReadIsLittleEndian
  intro m q w h
  have hlen : ((m.drop q).take w).length = w := by
    rw [List.length_take, List.length_drop]
    omega
  rw [payRead_toNat, leNat_eq_sum, hlen]
  refine Finset.sum_congr rfl fun i hi => ?_
  rw [getD_take_drop m q (Finset.mem_range.mp hi)]

/-- Settles O38: the two words decode alike, and an accepted word acts through its decoding only. -/
theorem unreadPayloadHasNoEffect : Obligations.UnreadPayloadHasNoEffect := by
  unfold Obligations.UnreadPayloadHasNoEffect
  intro w1 w2 s hh hb
  exact acceptCommand_congr s (decode_congr hh hb)

/-- Settles O43: each command's word by its place in the sequence, its header and its payload bytes. -/
theorem commandsCarryTheMessage : Obligations.CommandsCarryTheMessage := by
  unfold Obligations.CommandsCarryTheMessage
  intro seed m words
  have hwords : words = encode (.init seed) :: (groupsOf m).map encode ++
      [encode (finalOf (leftover m))] := by
    simp [words, hashCommands]
  have htail : (leftover m).length < 32 := by
    rw [leftover_length]
    omega
  rw [hwords]
  refine ⟨by simp, ⟨encode (.init seed), rfl, ?_, ?_⟩, fun j hj => ?_, ?_⟩
  · exact headerOf_encode _
  · exact (payWord_packWords (packHeader 1#3 0#5) seed 0 0 0).1
  · refine ⟨encode (groupOf (m.drop (32 * j))), ?_, headerOf_encode _, fun i hi => ?_⟩
    · simp [List.getElem?_append_left, hj]
    · rw [payByte_encode_groupOf _ hi, getElem?_eq_getD_drop m (by omega)]
  · refine ⟨encode (finalOf (leftover m)), by simp, ?_, fun i hi => ?_⟩
    · rw [headerOf_encode_finalOf _ htail, leftover_length]
    · rw [finalOf, payByte_encode_final _ _ (by omega), leftover, getElem?_eq_getD_drop m (by omega)]

end Sys2Proof.Proofs
end

section
/-! PROOFS. The decoder by the header byte: the three rows of the opcode map, the reserved headers, and
nothing else (R95, R96; statements DecodeFollowsOpcodeMap and ReservedEncodings). -/

namespace Sys2Proof

open Sys2Proof.Claims

/-! ## The header byte -/

/-- The ranges of R96 are exactly the headers that select no row of R95. -/
theorem reservedHeader_iff (h : BitVec 8) :
    reservedHeader h.toNat = true ↔ h ≠ 0x20#8 ∧ h ≠ 0x40#8 ∧ h &&& 0xE0#8 ≠ 0x60#8 := by
  revert h
  decide +kernel

/-- FINAL's row of the opcode map: `op` is 011, and `n` is the header without its opcode (R91, R95). -/
theorem finalHeader_fields {h : BitVec 8} (hf : h &&& 0xE0#8 = 0x60#8) :
    h.extractLsb' 5 3 = 3#3 ∧ (h.extractLsb' 0 5).toNat = h.toNat - 0x60 := by
  revert h
  decide +kernel

/-- A reserved header has an opcode of no command, or INIT's or GROUP's with a tail length (R96). -/
theorem reservedHeader_fields {h : BitVec 8} (hr : reservedHeader h.toNat = true) :
    (h.extractLsb' 5 3 = 1#3 → h.extractLsb' 0 5 ≠ 0#5) ∧
    (h.extractLsb' 5 3 = 2#3 → h.extractLsb' 0 5 ≠ 0#5) ∧ h.extractLsb' 5 3 ≠ 3#3 := by
  revert h
  decide +kernel

theorem opOf_eq_header (w : Cmd) : opOf w = (headerOf w).extractLsb' 5 3 := by
  rw [← opOf_packCmd, packCmd_fields]

theorem nOf_eq_header (w : Cmd) : nOf w = (headerOf w).extractLsb' 0 5 := by
  rw [← nOf_packCmd, packCmd_fields]

/-! ## Decoding by the header -/

section
variable {w : Cmd}

theorem decode_of_init_header (h : headerOf w = 0x20#8) : decode w = .ok (.init (payWord w 0)) := by
  rw [decode, opOf_eq_header, nOf_eq_header, h]
  rfl

theorem decode_of_group_header (h : headerOf w = 0x40#8) :
    decode w = .ok (.group (payWord w 0) (payWord w 1) (payWord w 2) (payWord w 3)) := by
  rw [decode, opOf_eq_header, nOf_eq_header, h]
  rfl

theorem decode_of_final_header (h : headerOf w &&& 0xE0#8 = 0x60#8) :
    decode w = .ok (.final (nOf w).toFin (payBytes w (nOf w).toNat)) := by
  have hop : opOf w = 3#3 := by
    rw [opOf_eq_header]
    exact (finalHeader_fields h).1
  have hn : Fin.ofNat 32 (nOf w).toNat = (nOf w).toFin := Fin.ext (Nat.mod_eq_of_lt (nOf w).isLt)
  rw [← hn, decode, hop]
  rfl

theorem decode_of_reserved_header (h : reservedHeader (headerOf w).toNat = true) :
    ∃ r, decode w = .error r := by
  obtain ⟨hinit, hgroup, hfinal⟩ := reservedHeader_fields h
  rw [← opOf_eq_header, ← nOf_eq_header] at hinit hgroup
  rw [← opOf_eq_header] at hfinal
  unfold decode
  by_cases h1 : opOf w = 1#3
  · exact ⟨.initWithLength (nOf w), by rw [if_pos h1, if_neg (hinit h1)]⟩
  by_cases h2 : opOf w = 2#3
  · exact ⟨.groupWithLength (nOf w), by rw [if_neg h1, if_pos h2, if_neg (hgroup h2)]⟩
  · exact ⟨.opcode (opOf w), by rw [if_neg h1, if_neg h2, if_neg hfinal]⟩

/-- What an accepted decoding says: the header's row and the command it gives (R95). -/
theorem decode_inv {i : Instr} (h : decode w = .ok i) :
    (headerOf w = 0x20#8 ∧ i = .init (payWord w 0)) ∨
    (headerOf w = 0x40#8 ∧ i = .group (payWord w 0) (payWord w 1) (payWord w 2) (payWord w 3)) ∨
    (headerOf w &&& 0xE0#8 = 0x60#8 ∧ i = .final (nOf w).toFin (payBytes w (nOf w).toNat)) := by
  by_cases hi : headerOf w = 0x20#8
  · exact .inl ⟨hi, Except.ok.inj (h.symm.trans (decode_of_init_header hi))⟩
  by_cases hg : headerOf w = 0x40#8
  · exact .inr (.inl ⟨hg, Except.ok.inj (h.symm.trans (decode_of_group_header hg))⟩)
  by_cases hf : headerOf w &&& 0xE0#8 = 0x60#8
  · exact .inr (.inr ⟨hf, Except.ok.inj (h.symm.trans (decode_of_final_header hf))⟩)
  · obtain ⟨r, hr⟩ := decode_of_reserved_header ((reservedHeader_iff _).mpr ⟨hi, hg, hf⟩)
    cases h.symm.trans hr

/-- The decoder rejects exactly the reserved headers (R96). -/
theorem decode_error_iff (w : Cmd) :
    (∃ r, decode w = .error r) ↔ reservedHeader (headerOf w).toNat = true := by
  refine ⟨fun ⟨r, hr⟩ => (reservedHeader_iff _).mpr ⟨fun h => ?_, fun h => ?_, fun h => ?_⟩,
    decode_of_reserved_header⟩
  · cases hr.symm.trans (decode_of_init_header h)
  · cases hr.symm.trans (decode_of_group_header h)
  · cases hr.symm.trans (decode_of_final_header h)

/-- A table word stands for the command that its command word decodes to (R102). -/
theorem decode_of_decodeTableWord {nbits n : Nat} {i : Instr} (h : decodeTableWord nbits n = some i) :
    decode (cmdOfTableWord nbits n) = .ok i := by
  unfold decodeTableWord at h
  cases hd : decode (cmdOfTableWord nbits n) with
  | error r => simp [hd, Except.toOption] at h
  | ok j => simpa [hd, Except.toOption] using h

end

end Sys2Proof
end

section
/-! PROOFS. A command word as header and payload bytes, and slices of it (R92, R98; statements
PayloadBytesOfWord and ListingRoundTrip). -/

namespace Sys2Proof

/-! ## Bit vectors by their bytes -/

/-- A value of `n` bytes is determined by them: `word_eq_of_bytes` for every width. -/
theorem eq_of_bytes {n : Nat} {x y : BitVec (8 * n)}
    (h : ∀ k < n, x.extractLsb' (8 * k) 8 = y.extractLsb' (8 * k) 8) : x = y := by
  apply BitVec.eq_of_getLsbD_eq
  intro i hi
  have hbit := congrArg (BitVec.getLsbD · (i % 8)) (h (i / 8) (by omega))
  simpa [show i % 8 < 8 by omega, show 8 * (i / 8) + i % 8 = i by omega] using hbit

/-- Byte `k` of the slice of the payload from byte `off` on is `PAY[off + k]` (R92). -/
theorem slice_byte (w : Cmd) (off : Nat) {n k : Nat} (hk : k < n) :
    (w.extractLsb' (8 * off) (8 * n)).extractLsb' (8 * k) 8 = payByte w (off + k) := by
  ext b hb
  simp [payByte, show 8 * k + b < 8 * n by omega,
    show 8 * off + (8 * k + b) = 8 * (off + k) + b by omega]

/-- A bit of the payload is a bit of its byte (R92). -/
theorem payByte_getLsbD (w : Cmd) (k : Nat) : (payByte w (k / 8)).getLsbD (k % 8) = w.getLsbD k := by
  simp [payByte, show k % 8 < 8 by omega, show 8 * (k / 8) + k % 8 = k by omega]

/-! ## The payload bytes of a word -/

theorem payBytes_getElem? (w : Cmd) {n i : Nat} (hi : i < n) :
    (payBytes w n)[i]? = some (payByte w i) := by
  simp [payBytes, hi]

theorem payBytes_getD (w : Cmd) {n i : Nat} (hi : i < n) : (payBytes w n).getD i 0 = payByte w i := by
  rw [List.getD_eq_getElem?_getD, payBytes_getElem? w hi]
  rfl

/-- The first `n` payload bytes, packed again: the payload with its bits from `8n` up cleared (R98). -/
theorem packPayload_payBytes_getLsbD (w : Cmd) (n : Nat) {k : Nat} (hk : k < 256) :
    (packPayload (payBytes w n)).getLsbD k = (w.getLsbD k && decide (k < 8 * n)) := by
  have hbyte : (packPayload (payBytes w n)).getLsbD k =
      ((payBytes w n).getD (k / 8) 0).getLsbD (k % 8) := by
    rw [← packPayload_byte (payBytes w n) (show k / 8 < 32 by omega), BitVec.getLsbD_extractLsb',
      show 8 * (k / 8) + k % 8 = k by omega]
    simp [show k % 8 < 8 by omega]
  rw [hbyte]
  by_cases hn : k / 8 < n
  · rw [payBytes_getD w hn, payByte_getLsbD]
    simp [show k < 8 * n by omega]
  · rw [List.getD_eq_default _ _ (by rw [payBytes_length]; omega)]
    simp [show ¬ k < 8 * n by omega]

/-- The payload is its 32 bytes (R92). -/
theorem packPayload_payBytes (w : Cmd) : packPayload (payBytes w 32) = w.extractLsb' 0 256 := by
  apply BitVec.eq_of_getLsbD_eq
  intro k hk
  rw [packPayload_payBytes_getLsbD w 32 hk]
  simp [hk]

/-- The payload is its four words (R93, R94). -/
theorem packWords_payWords (w : Cmd) :
    packWords (payWord w 0) (payWord w 1) (payWord w 2) (payWord w 3) = w.extractLsb' 0 256 := by
  apply BitVec.eq_of_getLsbD_eq
  intro k hk
  have hword (j : Nat) (h0 : 64 * j ≤ k) (h1 : k < 64 * j + 64) :
      (payWord w j).getLsbD (k - 64 * j) = w.getLsbD k := by
    simp [payWord, show k - 64 * j < 64 by omega, show 64 * j + (k - 64 * j) = k by omega]
  have hpay : (w.extractLsb' 0 256).getLsbD k = w.getLsbD k := by simp [hk]
  rw [packWords_getLsbD, Nat.sub_sub, Nat.sub_sub, hpay]
  split
  · exact hword 0 (by omega) (by omega)
  · split
    · exact hword 1 (by omega) (by omega)
    · split
      · exact hword 2 (by omega) (by omega)
      · exact hword 3 (by omega) (by omega)

/-- The payload of an INIT: the seed, then zeros (R93, R98). -/
theorem packWords_seed_getLsbD (w : Cmd) (k : Nat) :
    (packWords (payWord w 0) 0 0 0).getLsbD k = (w.getLsbD k && decide (k < 64)) := by
  rw [packWords_getLsbD]
  by_cases hk : k < 64 <;> simp [payWord, hk]

/-- A word is its header and its 32 payload bytes (R91, R92). -/
theorem packCmd_payBytes (w : Cmd) : packCmd (headerOf w) (packPayload (payBytes w 32)) = w := by
  rw [packPayload_payBytes, packCmd_fields]

theorem packCmd_toNat (h : BitVec 8) (p : Payload) :
    (packCmd h p).toNat = h.toNat * 2 ^ 256 + p.toNat := by
  rw [packCmd, BitVec.toNat_append, ← Nat.shiftLeft_add_eq_or_of_lt p.isLt, Nat.shiftLeft_eq]

/-- Packing 32 bytes loses nothing (R98). -/
theorem packPayload_toNat {bytes : List Byte} (hlen : bytes.length = 32) :
    (packPayload bytes).toNat = leNat bytes := by
  have hlt := leNat_lt bytes
  rw [hlen] at hlt
  rw [packPayload, BitVec.toNat_ofNat, Nat.mod_eq_of_lt hlt]

/-- A command word as an integer: the header on top of the little-endian sum of its bytes (R92). -/
theorem cmd_toNat (w : Cmd) : w.toNat = (headerOf w).toNat * 2 ^ 256 +
    ∑ i ∈ Finset.range 32, 2 ^ (8 * i) * (payByte w i).toNat := by
  calc w.toNat = (packCmd (headerOf w) (packPayload (payBytes w 32))).toNat := by
        rw [packCmd_payBytes]
    _ = (headerOf w).toNat * 2 ^ 256 + leNat (payBytes w 32) := by
        rw [packCmd_toNat, packPayload_toNat (payBytes_length w 32)]
    _ = (headerOf w).toNat * 2 ^ 256 +
          ∑ i ∈ Finset.range 32, 2 ^ (8 * i) * (payByte w i).toNat := by
        rw [leNat_eq_sum, payBytes_length]
        refine congrArg _ (Finset.sum_congr rfl fun i hi => ?_)
        rw [payBytes_getD w (Finset.mem_range.mp hi)]

/-- `PayRead` of the payload is a slice of the command word (R92). -/
theorem Machine.payRead_payBytes (w : Cmd) {off n : Nat} (h : off + n ≤ 32) :
    Machine.payRead (payBytes w 32) off n = w.extractLsb' (8 * off) (8 * n) := by
  apply eq_of_bytes
  intro k hk
  rw [Machine.payRead_byte _ _ hk, slice_byte w off hk, payBytes_getD w (by omega)]

/-! ## The listing form (R98) -/

@[simp] theorem listing_length (w : Cmd) : (listing w).length = 33 := by
  simp [listing]

theorem ofListing_listing (w : Cmd) : ofListing (listing w) = some w := by
  rw [listing, ofListing, if_pos (payBytes_length w 32), packCmd_payBytes]

/-- 33 bytes are the listing of the word they write. -/
theorem listing_packCmd (h : Byte) {pay : List Byte} (hlen : pay.length = 32) :
    listing (packCmd h (packPayload pay)) = h :: pay := by
  have hpay := payBytes_packPayload h (bytes := pay) hlen.le
  rw [hlen] at hpay
  rw [listing, headerOf_packCmd, hpay]

end Sys2Proof
end

section
/-! PROOFS. The encoder against the decoder (R93, R97; statements DecodeEncodeRoundTrip and
EncodeDecodeKeepsReadBits). -/

namespace Sys2Proof

open Sys2Proof.Claims

theorem wellFormed_final_iff (n : Fin 32) (tail : List Byte) :
    (Instr.final n tail).wellFormed = true ↔ tail.length = n.val := by
  simp [Instr.wellFormed]

/-- The decoder gives well-formed commands only (R99, R101). -/
theorem wellFormed_of_decode {w : Cmd} {i : Instr} (h : decode w = .ok i) : i.wellFormed = true := by
  rcases decode_inv h with ⟨-, rfl⟩ | ⟨-, rfl⟩ | ⟨-, rfl⟩
  · rfl
  · rfl
  · exact (wellFormed_final_iff _ _).mpr (payBytes_length w _)

/-- Encoding writes the header that was decoded (R95). -/
theorem encodeHeader_of_decode {w : Cmd} {i : Instr} (h : decode w = .ok i) :
    encodeHeader i = headerOf w := by
  rcases decode_inv h with ⟨hh, rfl⟩ | ⟨hh, rfl⟩ | ⟨hh, rfl⟩
  · rw [hh]
    rfl
  · rw [hh]
    rfl
  · have hop : opOf w = 3#3 := (opOf_eq_header w).trans (finalHeader_fields hh).1
    rw [encodeHeader, headerOf_eq w, hop]
    simp

/-- Encoding writes the payload bits that the command reads, and zeros above them (R93, R97). -/
theorem encodePayload_getLsbD_of_decode {w : Cmd} {i : Instr} (h : decode w = .ok i) {k : Nat}
    (hk : k < 256) :
    (encodePayload i).getLsbD k = (w.getLsbD k && decide (k < operandBits i)) := by
  rcases decode_inv h with ⟨-, rfl⟩ | ⟨-, rfl⟩ | ⟨-, rfl⟩
  · exact packWords_seed_getLsbD w k
  · rw [encodePayload, packWords_payWords]
    simp [operandBits, hk]
  · exact packPayload_payBytes_getLsbD w _ hk

/-- Encoding the decoded command gives the word back with the ignored bits cleared (R97, R98). -/
theorem encode_getLsbD_of_decode {w : Cmd} {i : Instr} (h : decode w = .ok i) {k : Nat}
    (hk : k < 264) :
    (encode i).getLsbD k = (w.getLsbD k && (decide (256 ≤ k) || decide (k < operandBits i))) := by
  rw [encode, packCmd_getLsbD]
  split
  · next hpay =>
    rw [encodePayload_getLsbD_of_decode h hpay]
    simp [show ¬ 256 ≤ k by omega]
  · next hhead =>
    rw [encodeHeader_of_decode h, headerOf, BitVec.getLsbD_extractLsb',
      show 256 + (k - 256) = k by omega]
    simp [show k - 256 < 8 by omega, show 256 ≤ k by omega]

end Sys2Proof
end

section
/-! PROOFS. The assembler's lines (R99, R100; statement AssemblerLines). -/

namespace Sys2Proof.Machine

theorem wellFormed_groupOf (bytes : List Byte) : (groupOf bytes).wellFormed = true := (rfl)

/-- A group is read from its own 32 bytes only (R63). -/
theorem groupOf_take (bytes : List Byte) : groupOf (bytes.take 32) = groupOf bytes := by
  simp only [groupOf]
  rw [payRead_take, payRead_take, payRead_take, payRead_take] <;> decide

/-- The FINAL of a tail that fits is that of its length (R99). -/
theorem finalOf_eq {tail : List Byte} {n : Nat} (hlen : tail.length = n) (hn : n < 32) :
    finalOf tail = .final ⟨n, hn⟩ tail := by
  have hfin : Fin.ofNat 32 tail.length = ⟨n, hn⟩ := Fin.ext (by
    rw [Fin.val_ofNat, hlen, Nat.mod_eq_of_lt hn])
  rw [finalOf, hfin]

/-- The sequence of HASH (R100, R236): INIT, the complete groups, the FINAL of the rest. -/
theorem hashCommands_eq (seed : Word) (m : List Byte) :
    hashCommands seed m = [.init seed] ++
      (List.range (m.length / 32)).map (fun j => groupOf ((m.drop (32 * j)).take 32)) ++
      [.final ⟨m.length % 32, Nat.mod_lt _ (by decide)⟩ (m.drop (32 * (m.length / 32)))] := by
  rw [hashCommands, finalOf_eq (leftover_length m) (Nat.mod_lt _ (by decide))]
  simp only [groupOf_take]
  rfl

/-- Every command of a HASH is well-formed. -/
theorem wellFormed_of_mem_hashCommands {seed : Word} {m : List Byte} {i : Instr}
    (h : i ∈ hashCommands seed m) : i.wellFormed = true := by
  rw [hashCommands_eq] at h
  simp only [List.mem_append, List.mem_singleton, List.mem_map] at h
  rcases h with (rfl | ⟨j, -, rfl⟩) | rfl
  · rfl
  · exact wellFormed_groupOf _
  · exact (wellFormed_final_iff _ _).mpr (leftover_length m)

/-- FINAL's line gives its command where the list has its `n` bytes, and is refused otherwise (R99). -/
theorem assemble_final {n : Nat} {bytes : List Byte} (hn : n < 32) (hlen : bytes.length = n) :
    assemble (.final n bytes) = some [.final ⟨n, hn⟩ bytes] := by
  simp [assemble, hn, hlen]

theorem assemble_final_refused {n : Nat} {bytes : List Byte} (h : 32 ≤ n ∨ bytes.length ≠ n) :
    assemble (.final n bytes) = none := by
  rcases h with h | h
  · simp [assemble, show ¬ n < 32 by omega]
  · simp [assemble, h]

/-- GROUP's line gives its command where the list has 32 bytes, and is refused otherwise (R99). -/
theorem assemble_group {bytes : List Byte} (hlen : bytes.length = 32) :
    assemble (.group bytes) = some [groupOf bytes] :=
  if_pos hlen

theorem assemble_group_refused {bytes : List Byte} (hlen : bytes.length ≠ 32) :
    assemble (.group bytes) = none :=
  if_neg hlen

/-- The commands of a line that is not refused are well-formed. -/
theorem wellFormed_of_assemble {line : AsmLine} {is : List Instr} (h : assemble line = some is)
    {i : Instr} (hi : i ∈ is) : i.wellFormed = true := by
  cases line with
  | init seed =>
    cases h
    rw [List.mem_singleton.mp hi]
    rfl
  | group bytes =>
    by_cases hlen : bytes.length = 32
    · cases (assemble_group hlen).symm.trans h
      rw [List.mem_singleton.mp hi]
      exact wellFormed_groupOf bytes
    · cases (assemble_group_refused hlen).symm.trans h
  | final n bytes =>
    by_cases hok : n < 32 ∧ bytes.length = n
    · obtain ⟨hn, hlen⟩ := hok
      cases (assemble_final hn hlen).symm.trans h
      rw [List.mem_singleton.mp hi]
      exact (wellFormed_final_iff _ _).mpr hlen
    · cases (assemble_final_refused (by omega)).symm.trans h
  | hash seed bytes =>
    cases h
    exact wellFormed_of_mem_hashCommands hi
  | hashStr seed text =>
    cases h
    exact wellFormed_of_mem_hashCommands hi

end Sys2Proof.Machine
end

section
/-! PROOFS. The statements of spec/30_encoding.md settled, each from the lemmas of the parts above. -/

namespace Sys2Proof.Proofs

open Sys2Proof.Machine

/-- Settles O1, by the three commands. -/
theorem decodeEncodeRoundTrip : Obligations.DecodeEncodeRoundTrip := by
  unfold Obligations.DecodeEncodeRoundTrip
  intro i hi
  cases i with
  | init seed => exact decode_encode_init seed
  | group l0 l1 l2 l3 => exact decode_encode_group l0 l1 l2 l3
  | final n tail => exact decode_encode_final ((wellFormed_final_iff n tail).mp hi)

/-- Settles O2: the header is written back as it was, and of the payload the bits the command reads. -/
theorem encodeDecodeKeepsReadBits : Obligations.EncodeDecodeKeepsReadBits := by
  unfold Obligations.EncodeDecodeKeepsReadBits
  intro w i h
  exact ⟨wellFormed_of_decode h, fun _ hk => encode_getLsbD_of_decode h hk⟩

/-- Settles O3, by the row that the header selects. -/
theorem decodeFollowsOpcodeMap : Obligations.DecodeFollowsOpcodeMap := by
  unfold Obligations.DecodeFollowsOpcodeMap
  intro w
  have hmask : w.extractLsb' 256 8 &&& 0xFF#8 = headerOf w := BitVec.and_allOnes
  rw [hmask]
  refine ⟨decode_of_init_header, decode_of_group_header, fun h => ?_, fun hi hg hf => ?_⟩
  · have hn : (nOf w).toNat = (headerOf w).toNat - 0x60 := by
      rw [nOf_eq_header]
      exact (finalHeader_fields h).2
    exact ⟨_, _, decode_of_final_header h, hn, payBytes_length w _,
      fun i hi => payBytes_getElem? w hi⟩
  · exact decode_of_reserved_header ((reservedHeader_iff (headerOf w)).mpr ⟨hi, hg, hf⟩)

/-- Settles O4: the ranges are the headers of no row, counted one by one, and a rejected word enters
FAULT. -/
theorem reservedEncodings : Obligations.ReservedEncodings := by
  unfold Obligations.ReservedEncodings
  refine ⟨decode_error_iff, by decide +kernel, by decide +kernel, ?_, fun w s hw hp => ?_⟩
  · exact decode_of_reserved_header (by decide +kernel)
  · obtain ⟨r, hr⟩ := decode_of_reserved_header hw
    rw [acceptCommand_of_reserved hr hp, enterFault_eq]

/-- Settles O6: a word is its header and its payload bytes, and a read of them is a slice. -/
theorem payloadBytesOfWord : Obligations.PayloadBytesOfWord := by
  unfold Obligations.PayloadBytesOfWord
  intro w
  refine ⟨fun i hi => payBytes_getElem? w hi, cmd_toNat w, fun j hj => ?_, fun off hoff => ?_,
    fun off hoff => ?_⟩
  · rw [payRead_payBytes w (by omega), ← Nat.mul_assoc]
  · exact payRead_payBytes w (by omega)
  · exact payRead_payBytes w (by omega)

/-- Settles O8: packing and unpacking the 33 bytes are inverse to each other. -/
theorem listingRoundTrip : Obligations.ListingRoundTrip := by
  unfold Obligations.ListingRoundTrip
  refine ⟨fun w => ⟨listing_length w, ofListing_listing w, rfl, fun i hi => ?_⟩, fun bytes => ?_⟩
  · rw [listing, List.getElem?_cons_succ, payBytes_getElem? w hi]
  · cases bytes with
    | nil => simp [ofListing]
    | cons h pay =>
      rw [List.length_cons]
      refine ⟨fun hlen => ?_, fun hlen => if_neg (by omega)⟩
      have hpay : pay.length = 32 := by omega
      exact ⟨packCmd h (packPayload pay), if_pos hpay, listing_packCmd h hpay⟩

/-- Settles O48, by the lines. -/
theorem assemblerLines : Obligations.AssemblerLines := by
  unfold Obligations.AssemblerLines
  refine ⟨fun line is h i hi => wellFormed_of_assemble h hi, rfl, fun seed => rfl,
    fun bytes => ⟨fun hlen => ⟨assemble_group hlen, fun k hk => ?_⟩, assemble_group_refused⟩,
    fun n bytes => ⟨assemble_final, assemble_final_refused⟩,
    fun seed m => ⟨rfl, hashCommands_eq seed m⟩, fun seed text => rfl⟩
  rw [payByte_encode_groupOf bytes hk, List.getD_eq_getElem _ _ (by omega),
    List.getElem?_eq_getElem (by omega)]

/-- Settles O5: the decoder computes on each of the five words. -/
theorem sampleWordsDecode : Obligations.SampleWordsDecode := by
  unfold Obligations.SampleWordsDecode
  refine ⟨?_, ?_, ?_, ?_, ?_⟩ <;> decide +kernel

/-- Settles O9: the placed word is the first at the port and presented afresh, so its edge runs it. -/
theorem fetchWordRunsNext : Obligations.FetchWordRunsNext := by
  unfold Obligations.FetchWordRunsNext
  intro s nbits w i h
  exact (step_of_cons rfl).trans (Safety.clockEdge_accept (decode_of_decodeTableWord h) rfl)

end Sys2Proof.Proofs
end

section
/-! PROOFS. The permutation network bit by bit: the rotations and the xor-shifts (R121, R122). -/

namespace Sys2Proof.Machine

/-! ## Rotation (R121) -/

section
variable (x : Word) {k : Nat}

/-- Output bit `i` is input bit `(i - k) mod 64` (R121). -/
theorem rotl64_getLsbD (hk : k ≤ 63) {i : Nat} (hi : i < 64) :
    (rotl64 x k).getLsbD i = x.getLsbD ((i + 64 - k) % 64) := by
  rw [rotl64, BitVec.getLsbD_or, BitVec.getLsbD_shiftLeft, BitVec.getLsbD_ushiftRight]
  by_cases hik : i < k
  · have hwrap : (i + 64 - k) % 64 = 64 - k + i := by omega
    simp [hi, hik, hwrap]
  · have hshift : (i + 64 - k) % 64 = i - k := by omega
    have hout : x.getLsbD (64 - k + i) = false := BitVec.getLsbD_of_ge x _ (by omega)
    simp [hi, hik, hshift, hout]

/-- Rotating on by the rest of the 64 places gives the word back. -/
theorem rotl64_rotl64_rest (h1 : 1 ≤ k) (hk : k ≤ 63) : rotl64 (rotl64 x k) (64 - k) = x := by
  apply BitVec.eq_of_getLsbD_eq
  intro i hi
  rw [rotl64_getLsbD _ (by omega) hi, rotl64_getLsbD _ hk (Nat.mod_lt _ (by omega))]
  congr 1
  omega

@[simp] theorem rotl64_zero (k : Nat) : rotl64 0 k = 0 := by simp [rotl64]

/-- Rotation moves the places of the one bits around, so it keeps their number (R121). -/
theorem rotl64_card_ones (hk : k ≤ 63) :
    ((Finset.range 64).filter fun i => (rotl64 x k).getLsbD i = true).card =
      ((Finset.range 64).filter fun i => x.getLsbD i = true).card := by
  refine Finset.card_nbij' (fun i => (i + 64 - k) % 64) (fun i => (i + k) % 64) ?_ ?_ ?_ ?_
  · intro i hi
    obtain ⟨hlt, hbit⟩ : i < 64 ∧ (rotl64 x k).getLsbD i = true := by simpa using hi
    rw [rotl64_getLsbD x hk hlt] at hbit
    simpa [hbit] using Nat.mod_lt _ (by omega)
  · intro i hi
    obtain ⟨hlt, hbit⟩ : i < 64 ∧ x.getLsbD i = true := by simpa using hi
    have hback : ((i + k) % 64 + 64 - k) % 64 = i := by omega
    have hmem : (i + k) % 64 < 64 := Nat.mod_lt _ (by omega)
    simpa [rotl64_getLsbD x hk hmem, hback, hbit] using hmem
  · intro i hi
    have hlt : i < 64 := by simpa using (Finset.mem_filter.mp hi).1
    show ((i + 64 - k) % 64 + k) % 64 = i
    omega
  · intro i hi
    have hlt : i < 64 := by simpa using (Finset.mem_filter.mp hi).1
    show ((i + k) % 64 + 64 - k) % 64 = i
    omega

end

/-! ## The xor-shift (R122) -/

section
variable (x : Word)

/-- Bit `i` is the xor of the bits `i` and `i + k`; above the word there are zeros (R122). -/
theorem xs_getLsbD (k i : Nat) : (xs x k).getLsbD i = (x.getLsbD i ^^ x.getLsbD (i + k)) := by
  rw [xs, BitVec.getLsbD_xor, BitVec.getLsbD_ushiftRight, Nat.add_comm]

@[simp] theorem xs_zero (k : Nat) : xs 0 k = 0 := by simp [xs]

theorem xs_of_ge {k : Nat} (hk : 64 ≤ k) : xs x k = x := by
  rw [xs, BitVec.ushiftRight_eq_zero hk, BitVec.xor_zero]

theorem xs_comm (j k : Nat) : xs (xs x j) k = xs (xs x k) j := by
  apply BitVec.eq_of_getLsbD_eq
  intro i hi
  simp only [xs_getLsbD]
  rw [Nat.add_right_comm i k j, Bool.xor_assoc, Bool.xor_assoc, Bool.xor_left_comm (x.getLsbD (i + j))]

/-- Xor-shifting twice by `k` is xor-shifting once by `2k`: the two words shifted by `k` cancel. -/
theorem xs_xs_same (k : Nat) : xs (xs x k) k = xs x (2 * k) := by
  apply BitVec.eq_of_getLsbD_eq
  intro i hi
  simp only [xs_getLsbD]
  rw [Nat.add_assoc i k k, ← Nat.two_mul]
  cases x.getLsbD (i + k) <;> simp

/-- The inverse of an xor-shift by a quarter of the word or more: 2k and 4k bits further on, nothing
of the word is left over. -/
theorem xs_cancel {k : Nat} (hk : 16 ≤ k) : xs (xs (xs x k) k) (2 * k) = x := by
  rw [xs_xs_same, xs_xs_same, xs_of_ge x (by omega)]

/-- That inverse written out, for the amounts whose triple leaves the word (R133 for k = 29). -/
theorem xs_xs_double {k : Nat} (hk : 64 ≤ 3 * k) :
    xs (xs x k) (2 * k) = x ^^^ x >>> k ^^^ x >>> (2 * k) := by
  have hout : x >>> (k + 2 * k) = 0#64 := BitVec.ushiftRight_eq_zero (by omega)
  rw [xs, xs, BitVec.ushiftRight_xor_distrib, ← BitVec.shiftRight_add, hout, BitVec.xor_zero]

end

end Sys2Proof.Machine
end

section
/-! PROOFS. The datapath in integer arithmetic modulo 2^64 (R120, R123 to R130). -/

namespace Sys2Proof.Machine

open Sys2Proof.Claims

/-! ## The constants in decimal (R123) -/

theorem prime1_toNat : prime1.toNat = p1 := by decide

theorem prime2_toNat : prime2.toNat = p2 := by decide

theorem prime3_toNat : prime3.toNat = p3 := by decide

theorem prime4_toNat : prime4.toNat = p4 := by decide

theorem prime5_toNat : prime5.toNat = p5 := by decide

/-- Multiplying by a constant of known value. It stands in for the library's `BitVec.toNat_mul`:
`simp` applies that one by unfolding, and the kernel then recurses too deep on the product. -/
theorem mul_toNat_of {c : Word} {p : Nat} (hc : c.toNat = p) (x : Word) :
    (x * c).toNat = x.toNat * p % 2 ^ 64 := by
  rw [BitVec.toNat_mul, hc]

/-! ## The permutation network -/

theorem rotl64_toNat (x : Word) (k : Nat) :
    (rotl64 x k).toNat = x.toNat * 2 ^ k % 2 ^ 64 ||| x.toNat / 2 ^ (64 - k) := by
  rw [rotl64, BitVec.toNat_or, BitVec.toNat_shiftLeft, BitVec.toNat_ushiftRight, Nat.shiftLeft_eq,
    Nat.shiftRight_eq_div_pow]

/-- The two shifts meet in no bit: the left one is a multiple of 2^k and the right one is below 2^k. -/
theorem rotl64_toNat_eq_rotNat (x : Word) {k : Nat} (hk : k ≤ 63) :
    (rotl64 x k).toNat = rotNat x.toNat k := by
  have hpow : 2 ^ 64 = 2 ^ k * 2 ^ (64 - k) := by rw [← pow_add, Nat.add_sub_cancel' (by omega)]
  have hlow : x.toNat / 2 ^ (64 - k) < 2 ^ k :=
    Nat.div_lt_of_lt_mul (by rw [mul_comm, ← hpow]; exact x.isLt)
  have hhigh : x.toNat * 2 ^ k % 2 ^ 64 = 2 ^ k * (x.toNat % 2 ^ (64 - k)) := by
    rw [hpow, mul_comm x.toNat, Nat.mul_mod_mul_left]
  rw [rotl64_toNat, rotNat, hhigh, Nat.two_pow_add_eq_or_of_lt hlow]

theorem xs_toNat (x : Word) (k : Nat) : (xs x k).toNat = x.toNat ^^^ x.toNat / 2 ^ k := by
  rw [xs, BitVec.toNat_xor, BitVec.toNat_ushiftRight, Nat.shiftRight_eq_div_pow]

/-- A zero-extended operand is the unsigned number of its bits (R132). -/
theorem zext64_toNat {w : Nat} (hw : w ≤ 64) (v : BitVec w) : (zext64 v).toNat = v.toNat :=
  BitVec.toNat_setWidth_of_le hw

/-! ## The mixing functions -/

theorem laneRound_toNat (acc w : Word) : (laneRound acc w).toNat = roundNat acc.toNat w.toNat := by
  rw [laneRound, roundNat, mul_toNat_of prime1_toNat, rotl64_toNat_eq_rotNat _ (by decide),
    BitVec.toNat_add, mul_toNat_of prime2_toNat, Nat.add_mod_mod]

theorem laneRound_zero_toNat (w : Word) : (laneRound 0 w).toNat = roundNat 0 w.toNat :=
  laneRound_toNat 0 w

/-- The corner case of R124: the product taken away beforehand leaves zero to be rotated. -/
theorem laneRound_of_cancel (w : Word) : laneRound (0 - w * prime2) w = 0 := by
  have hsum : 0 - w * prime2 + w * prime2 = 0 := sub_add_cancel 0 _
  simp only [laneRound, hsum, rotl64_zero, zero_mul]

theorem merge4_toNat (a b c d : Word) : (merge4 a b c d).toNat =
    (rotNat a.toNat 1 + rotNat b.toNat 7 + rotNat c.toNat 12 + rotNat d.toNat 18) % 2 ^ 64 := by
  simp [merge4, BitVec.toNat_add, rotl64_toNat_eq_rotNat]

theorem mergeround_toNat (h x : Word) : (mergeround h x).toNat =
    ((h.toNat ^^^ roundNat 0 x.toNat) * p1 + p4) % 2 ^ 64 := by
  rw [mergeround, BitVec.toNat_add, mul_toNat_of prime1_toNat, BitVec.toNat_xor,
    laneRound_zero_toNat, prime4_toNat, Nat.mod_add_mod]

theorem tail8_toNat (h w : Word) : (tail8 h w).toNat =
    (rotNat (h.toNat ^^^ roundNat 0 w.toNat) 27 * p1 + p4) % 2 ^ 64 := by
  rw [tail8, BitVec.toNat_add, mul_toNat_of prime1_toNat, rotl64_toNat_eq_rotNat _ (by decide),
    BitVec.toNat_xor, laneRound_zero_toNat, prime4_toNat, Nat.mod_add_mod]

theorem tail4_toNat (h : Word) (w : BitVec 32) : (tail4 h w).toNat =
    (rotNat (h.toNat ^^^ w.toNat * p1 % 2 ^ 64) 23 * p2 + p3) % 2 ^ 64 := by
  rw [tail4, BitVec.toNat_add, mul_toNat_of prime2_toNat, rotl64_toNat_eq_rotNat _ (by decide),
    BitVec.toNat_xor, mul_toNat_of prime1_toNat, zext64_toNat (by decide), prime3_toNat,
    Nat.mod_add_mod]

theorem tail1_toNat (h : Word) (b : Byte) : (tail1 h b).toNat =
    rotNat (h.toNat ^^^ b.toNat * p5 % 2 ^ 64) 11 * p1 % 2 ^ 64 := by
  rw [tail1, mul_toNat_of prime1_toNat, rotl64_toNat_eq_rotNat _ (by decide), BitVec.toNat_xor,
    mul_toNat_of prime5_toNat, zext64_toNat (by decide)]

theorem avalanche_zero : avalanche 0 = 0 := by
  simp only [avalanche, xs_zero, zero_mul]

end Sys2Proof.Machine
end

section
/-! PROOFS. Every step of the datapath is a bijection of W64 (R133). -/

namespace Sys2Proof.Machine

/-! ## The elementary steps -/

theorem rotl64_bijective {k : Nat} (h1 : 1 ≤ k) (hk : k ≤ 63) :
    Function.Bijective fun x : Word => rotl64 x k := by
  refine Function.bijective_iff_has_inverse.mpr ⟨fun y => rotl64 y (64 - k),
    fun x => rotl64_rotl64_rest x h1 hk, fun y => ?_⟩
  have hrest := rotl64_rotl64_rest y (k := 64 - k) (by omega) (by omega)
  rwa [show 64 - (64 - k) = k by omega] at hrest

/-- An odd word has an inverse modulo 2^64. -/
theorem isUnit_of_odd {k : Word} (hk : k.getLsbD 0 = true) : IsUnit k := by
  have hodd : Odd k.toNat := by simpa [BitVec.getLsbD, Nat.odd_iff] using hk
  have hcop : Nat.Coprime k.toNat (2 ^ 64) := (Nat.coprime_two_right.mpr hodd).pow_right 64
  obtain ⟨m, -, hm⟩ := Nat.exists_mul_mod_eq_one_of_coprime hcop (by decide)
  refine IsUnit.of_mul_eq_one (BitVec.ofNat 64 m) (BitVec.eq_of_toNat_eq ?_)
  simpa [BitVec.toNat_mul] using hm

theorem mul_odd_bijective {k : Word} (hk : k.getLsbD 0 = true) :
    Function.Bijective fun x : Word => x * k :=
  IsUnit.isUnit_iff_mulRight_bijective.mp (isUnit_of_odd hk)

theorem xor_bijective (v : Word) : Function.Bijective fun x : Word => x ^^^ v :=
  Function.Involutive.bijective fun x => by
    rw [BitVec.xor_assoc, BitVec.xor_self, BitVec.xor_zero]

theorem xs_bijective {k : Nat} (hk : 16 ≤ k) : Function.Bijective fun x : Word => xs x k := by
  refine Function.bijective_iff_has_inverse.mpr ⟨fun y => xs (xs y k) (2 * k),
    fun x => xs_cancel x hk, fun y => ?_⟩
  show xs (xs (xs y k) (2 * k)) k = y
  rw [xs_comm (xs y k), xs_cancel y hk]

/-! ## The mixing functions -/

section
variable {k : Nat} (h1 : 1 ≤ k) (hk : k ≤ 63) {p : Word} (hp : p.getLsbD 0 = true)
include h1 hk hp

/-- What the lane round and the tail steps end in: rotate and multiply by a prime. -/
theorem rotl64_mul_bijective : Function.Bijective fun x : Word => rotl64 x k * p :=
  (mul_odd_bijective hp).comp (rotl64_bijective h1 hk)

/-- What the three tail steps share: xor the data into the running word, rotate, multiply by a prime. -/
theorem xor_rotl64_mul_bijective (v : Word) :
    Function.Bijective fun h : Word => rotl64 (h ^^^ v) k * p :=
  (rotl64_mul_bijective h1 hk hp).comp (xor_bijective v)

end

theorem avalanche_bijective : Function.Bijective avalanche :=
  (xs_bijective (k := 32) (by decide)).comp <| (mul_odd_bijective (k := prime3) (by decide)).comp <|
    (xs_bijective (k := 29) (by decide)).comp <|
      (mul_odd_bijective (k := prime2) (by decide)).comp <| xs_bijective (k := 33) (by decide)

theorem laneRound_bijective_acc (w : Word) : Function.Bijective fun acc => laneRound acc w :=
  (rotl64_mul_bijective (k := 31) (p := prime1) (by decide) (by decide) (by decide)).comp
    (AddGroup.addRight_bijective (w * prime2))

theorem laneRound_bijective_input (acc : Word) : Function.Bijective (laneRound acc) :=
  (rotl64_mul_bijective (k := 31) (p := prime1) (by decide) (by decide) (by decide)).comp <|
    (AddGroup.addLeft_bijective acc).comp (mul_odd_bijective (k := prime2) (by decide))

theorem mergeround_bijective (x : Word) : Function.Bijective fun h => mergeround h x :=
  (AddGroup.addRight_bijective prime4).comp <|
    (mul_odd_bijective (k := prime1) (by decide)).comp (xor_bijective (laneRound 0 x))

theorem tail8_bijective (x : Word) : Function.Bijective fun h => tail8 h x :=
  (AddGroup.addRight_bijective prime4).comp
    (xor_rotl64_mul_bijective (by decide) (by decide) (by decide) (laneRound 0 x))

theorem tail4_bijective (x : BitVec 32) : Function.Bijective fun h => tail4 h x :=
  (AddGroup.addRight_bijective prime3).comp
    (xor_rotl64_mul_bijective (by decide) (by decide) (by decide) (zext64 x * prime1))

theorem tail1_bijective (b : Byte) : Function.Bijective fun h => tail1 h b :=
  xor_rotl64_mul_bijective (by decide) (by decide) (by decide) (zext64 b * prime5)

/-! ## The inverse of the avalanche -/

theorem prime2_mul_inverse : prime2 * 0x0BA79078168D4BAF#64 = 1#64 := by decide

theorem prime3_mul_inverse : prime3 * 0xE9E9F4C41D6DF849#64 = 1#64 := by decide

/-- The avalanche undone step by step, last step first (R133). -/
theorem avalanche_inverse (h : Word) :
    xs (xs (xs (xs (avalanche h) 32 * 0xE9E9F4C41D6DF849#64) 29) 58 * 0x0BA79078168D4BAF#64) 33 = h := by
  have hxs32 (x : Word) : xs (xs x 32) 32 = x := (xs_xs_same x 32).trans (xs_of_ge x (by decide))
  have hxs33 (x : Word) : xs (xs x 33) 33 = x := (xs_xs_same x 33).trans (xs_of_ge x (by decide))
  have hxs29 (x : Word) : xs (xs (xs x 29) 29) 58 = x := xs_cancel x (by decide)
  simp only [avalanche, hxs32, BitVec.mul_assoc, prime3_mul_inverse, BitVec.mul_one, hxs29,
    prime2_mul_inverse, hxs33]

end Sys2Proof.Machine
end

section
/-! PROOFS. The statements of spec/40_datapath_primitives.md settled, each from the lemmas of the parts
above. -/

namespace Sys2Proof.Proofs

open Sys2Proof.Machine

/-- Settles O10, bit by bit; the places of the one bits are only moved around. -/
theorem rotateLeftBits : Obligations.RotateLeftBits := by
  unfold Obligations.RotateLeftBits
  intro x k _ hk
  exact ⟨fun i hi => rotl64_getLsbD x hk hi, rotl64_toNat x k, rotl64_card_ones x hk⟩

/-- Settles O11: a bit from above the word is zero, and leaves the bit it is xored with. -/
theorem xorShiftBits : Obligations.XorShiftBits := by
  unfold Obligations.XorShiftBits
  intro x k hk
  have hout {i : Nat} (h : ¬ i + k ≤ 63) : x.getLsbD (i + k) = false :=
    BitVec.getLsbD_of_ge x _ (by omega)
  refine ⟨fun i hi => ?_, rfl, fun i hi => ?_⟩
  · rw [BitVec.getLsbD_ushiftRight, Nat.add_comm]
    split
    · rfl
    · next h => exact hout h
  · rw [xs_getLsbD]
    split
    · rfl
    · next h => rw [hout (by omega), Bool.xor_false]

/-- Settles O12, by the integer form of the lane round; the first corner case computes, the second
cancels. -/
theorem roundInIntegers : Obligations.RoundInIntegers := by
  unfold Obligations.RoundInIntegers
  exact ⟨laneRound_toNat, by decide, laneRound_of_cancel⟩

/-- Settles O13, by the integer forms of its two parts; the corner cases compute. -/
theorem laneMergeInIntegers : Obligations.LaneMergeInIntegers := by
  unfold Obligations.LaneMergeInIntegers
  exact ⟨merge4_toNat, mergeround_toNat, by decide, by decide⟩

/-- Settles O14, by the integer form of each tail step; the corner cases compute. -/
theorem tailStepsInIntegers : Obligations.TailStepsInIntegers := by
  unfold Obligations.TailStepsInIntegers
  exact ⟨tail8_toNat, tail4_toNat, tail1_toNat, by decide, by decide, by decide, by decide, by decide⟩

/-- Settles O15, one operation after the other. -/
theorem avalancheInIntegers : Obligations.AvalancheInIntegers := by
  unfold Obligations.AvalancheInIntegers
  refine ⟨fun h => ?_, avalanche_zero⟩
  simp only [avalanche, xs_toNat, mul_toNat_of prime2_toNat, mul_toNat_of prime3_toNat]

/-- Settles O16: each function is a composition of elementary steps, and each of these has an inverse. -/
theorem datapathIsInvertible : Obligations.DatapathIsInvertible := by
  unfold Obligations.DatapathIsInvertible
  refine ⟨by decide, prime2_mul_inverse, prime3_mul_inverse, AddGroup.addRight_bijective,
    fun k h1 hk => rotl64_bijective h1 hk, fun k hk => mul_odd_bijective hk, fun y => ⟨?_, ?_, ?_⟩,
    fun k hk => xs_bijective (by omega), avalanche_bijective, laneRound_bijective_acc,
    laneRound_bijective_input, mergeround_bijective, tail8_bijective, tail4_bijective,
    tail1_bijective, fun h => ?_⟩
  · rw [xs_xs_same, xs_of_ge y (by decide)]
  · rw [xs_xs_same, xs_of_ge y (by decide)]
  · exact (xs_xs_double (xs y 29) (by decide)).symm.trans (xs_cancel y (by decide))
  · have hinv := avalanche_inverse h
    rwa [xs_xs_double _ (k := 29) (by decide)] at hinv

end Sys2Proof.Proofs
end

section
/-! PROOFS. INIT (R150, R153): its words, its effect by the derived constants, and what two cores share
once both have executed it (statements InitResult and InitForgetsThePast). -/

namespace Sys2Proof

/-- INIT's opcode with a tail length is reserved (R96). -/
theorem decode_of_init_op_length {w : Cmd} (hop : opOf w = 1#3) (hn : nOf w ≠ 0#5) :
    decode w = .error (.initWithLength (nOf w)) := by
  rw [decode, if_pos hop, if_neg hn]

end Sys2Proof

namespace Sys2Proof.Machine

/-! ## One INIT -/

theorem exec_init_of_ne (seed : Word) {s : State} (hp : s.ph ≠ .fault) :
    exec (.init seed) s = .next (initEffect seed s) :=
  (exec_init seed s).trans (unlessFault_of_ne _ hp)

theorem exec_init_of_fault (seed : Word) {s : State} (hp : s.ph = .fault) :
    exec (.init seed) s = .next s :=
  (exec_init seed s).trans (unlessFault_of_fault _ hp)

theorem acceptCommand_of_init_header {w : Cmd} {s : State} (hw : headerOf w = 0x20#8)
    (hp : s.ph ≠ .fault) : acceptCommand w s = .next (initEffect (payWord w 0) s) :=
  (acceptCommand_of_decode s (decode_of_init_header hw)).trans (exec_init_of_ne _ hp)

theorem prime1_add_prime2 : prime1 + prime2 = 0x60EA27EEADC0B5D6#64 := by decide

theorem neg_prime1 : -prime1 = 0x61C8864E7A143579#64 := by decide

/-- INIT's writes with lanes A and D by the constants that R150 derives. -/
theorem initEffect_eq_derived (seed : Word) (s : State) : initEffect seed s =
    { s with
      seed := seed
      laneA := seed + 0x60EA27EEADC0B5D6#64
      laneB := seed + 0xC2B2AE3D27D4EB4F#64
      laneC := seed
      laneD := seed + 0x61C8864E7A143579#64
      len := 0
      ph := .absorb } := by
  rw [initEffect_eq, BitVec.add_assoc, prime1_add_prime2, BitVec.sub_eq_add_neg, neg_prime1, prime2]

end Sys2Proof.Machine

namespace Sys2Proof.Safety

open Sys2Proof.Machine Sys2Proof.Claims

/-! ## Two cores in the same computation -/

/-- Two states that agree on the registers R153 names: everything that a later GROUP or FINAL reads. -/
structure SameComputation (s t : State) : Prop where
  laneA : s.laneA = t.laneA
  laneB : s.laneB = t.laneB
  laneC : s.laneC = t.laneC
  laneD : s.laneD = t.laneD
  len : s.len = t.len
  seed : s.seed = t.seed
  ph : s.ph = t.ph

/-- INIT makes the registers of the seed alone, whatever the two states were (R153). -/
theorem sameComputation_initEffect (seed : Word) (s t : State) :
    SameComputation (initEffect seed s) (initEffect seed t) := by
  constructor <;> simp

section
variable {s t : State}

theorem sameComputation_absorbGroup (h : SameComputation s t) (g : Words) :
    SameComputation (absorbGroup s g) (absorbGroup t g) where
  laneA := by simp [absorbGroup, h.laneA]
  laneB := by simp [absorbGroup, h.laneB]
  laneC := by simp [absorbGroup, h.laneC]
  laneD := by simp [absorbGroup, h.laneD]
  len := by simp [h.len]
  seed := by simpa [absorbGroup] using h.seed
  ph := by simpa using h.ph

theorem sameComputation_foldl_absorbGroup (h : SameComputation s t) (gs : List Words) :
    SameComputation (gs.foldl absorbGroup s) (gs.foldl absorbGroup t) := by
  induction gs generalizing s t with
  | nil => exact h
  | cons g gs ih => exact ih (sameComputation_absorbGroup h g)

theorem finalEffect_hash_congr (h : SameComputation s t) (n : Nat) (tail : List Byte) :
    (finalEffect n tail s).hash = (finalEffect n tail t).hash := by
  rw [finalEffect_hash, finalEffect_hash, h.len]
  exact finalHash_congr n tail _ h.laneA h.laneB h.laneC h.laneD h.seed

end

/-! ## The commands of a message -/

/-- The four words of the 32 bytes at the front of `bytes`, as `groupOf` reads them (R64). -/
def groupWords (bytes : List Byte) : Words where
  l0 := payRead bytes 0 8
  l1 := payRead bytes 8 8
  l2 := payRead bytes 16 8
  l3 := payRead bytes 24 8

/-- The words of each complete group of a message, in message order (R63). -/
def messageGroups (m : List Byte) : List Words :=
  (List.range (m.length / 32)).map fun j => groupWords (m.drop (32 * j))

/-- The sequence of HASH (R236) is INIT and the message's groups, then FINAL. -/
theorem hashCommands_eq_opened (seed : Word) (m : List Byte) :
    hashCommands seed m = opened seed (messageGroups m) ++ [finalOf (leftover m)] := by
  rw [opened, messageGroups, List.map_map]
  rfl

/-- The state in which the commands of a message leave a core that is not in FAULT. -/
theorem runCommands_hashCommands (seed : Word) (m : List Byte) {s : State} (hp : s.ph ≠ .fault) :
    runCommands (hashCommands seed m) s = .next (setPort [] (setPresented .nothing
      (finalEffect (m.length % 32) (leftover m)
        ((messageGroups m).foldl absorbGroup (initEffect seed s))))) := by
  rw [hashCommands_eq_opened, runCommands_opened_append seed _ _ hp,
    finalOf_eq (leftover_length m) (Nat.mod_lt _ (by decide))]
  exact runCommands_final (leftover_length m) (by simp)

end Sys2Proof.Safety
end

section
/-! PROOFS. The statements of spec/41_init.md settled, each from the lemmas of the parts above. -/

namespace Sys2Proof.Proofs

open Sys2Proof.Machine Sys2Proof.Safety

/-- Settles O17: the header selects INIT, a tail length makes the word reserved, and the effect is the
rule's with the derived constants. -/
theorem initResult : Obligations.InitResult := by
  unfold Obligations.InitResult
  refine ⟨fun w hw => decode_of_init_header hw,
    fun w hop hn => ⟨_, decode_of_init_op_length hop hn⟩, fun seed s => ⟨fun hp => ?_, ?_⟩⟩
  · rw [exec_init_of_ne seed hp, initEffect_eq_derived]
  · exact exec_init_of_fault seed

/-- Settles O37: INIT makes the two cores agree on everything its groups and its FINAL read, and these
keep them in agreement up to the hash. -/
theorem initForgetsThePast : Obligations.InitForgetsThePast := by
  unfold Obligations.InitForgetsThePast
  refine ⟨fun s1 s2 w1 w2 hw1 hw2 hseed hp1 hp2 => ?_, fun seed m s1 s2 hp1 hp2 => ?_⟩
  · have hpay : payWord w1 0 = payWord w2 0 := hseed
    obtain ⟨ha, hb, hc, hd, hlen, hs, hph⟩ := sameComputation_initEffect (payWord w1 0) s1 s2
    refine ⟨_, _, acceptCommand_of_init_header hw1 hp1, ?_, ha, hb, hc, hd, hlen, hs, hph⟩
    rw [acceptCommand_of_init_header hw2 hp2, hpay]
  · have hsame := sameComputation_foldl_absorbGroup (sameComputation_initEffect seed s1 s2)
      (messageGroups m)
    refine ⟨_, _, runCommands_hashCommands seed m hp1, runCommands_hashCommands seed m hp2,
      by simp, by simp, ?_⟩
    exact finalEffect_hash_congr hsame (m.length % 32) (leftover m)

end Sys2Proof.Proofs
end

section
/-! PROOFS. GROUP (R160, R162): its words, its effect in integer arithmetic, and what any number of groups
leaves (statements GroupResult and LanesAfterGroups). -/

namespace Sys2Proof

/-- GROUP's opcode with a tail length is reserved (R96). -/
theorem decode_of_group_op_length {w : Cmd} (hop : opOf w = 2#3) (hn : nOf w ≠ 0#5) :
    decode w = .error (.groupWithLength (nOf w)) := by
  have hinit : opOf w ≠ 1#3 := by simp [hop]
  rw [decode, if_neg hinit, if_pos hop, if_neg hn]

end Sys2Proof

namespace Sys2Proof.Machine

open Sys2Proof.Claims

/-- The group of a whole payload: `PayRead(8j, 8)` is the slice `cmd[64j+63 : 64j]` (R94, R160). -/
theorem groupOf_payBytes (w : Cmd) : groupOf (payBytes w 32) =
    .group (payWord w 0) (payWord w 1) (payWord w 2) (payWord w 3) := by
  rw [groupOf, payRead_payBytes w (by decide), payRead_payBytes w (by decide),
    payRead_payBytes w (by decide), payRead_payBytes w (by decide)]
  rfl

/-! ## One GROUP -/

theorem exec_group_of_absorb (l0 l1 l2 l3 : Word) {s : State} (hp : s.ph = .absorb) :
    exec (.group l0 l1 l2 l3) s = .next (groupEffect l0 l1 l2 l3 s) :=
  (exec_group l0 l1 l2 l3 s).trans (whenAbsorbing_of_absorb _ hp)

theorem exec_group_of_idle_or_done (l0 l1 l2 l3 : Word) {s : State} (hp : s.ph = .idle ∨ s.ph = .done) :
    exec (.group l0 l1 l2 l3) s = .next (enterFault .sequence s) :=
  (exec_group l0 l1 l2 l3 s).trans (whenAbsorbing_of_idle_or_done _ hp)

theorem exec_group_of_fault (l0 l1 l2 l3 : Word) {s : State} (hp : s.ph = .fault) :
    exec (.group l0 l1 l2 l3) s = .next s :=
  (exec_group l0 l1 l2 l3 s).trans (whenAbsorbing_of_fault _ hp)

/-- The round of R124 as the word of its integer form. -/
theorem laneRound_eq_ofNat (acc w : Word) :
    laneRound acc w = BitVec.ofNat 64 (roundNat acc.toNat w.toNat) := by
  rw [← laneRound_toNat, BitVec.ofNat_toNat, BitVec.setWidth_eq]

theorem add_32_eq_ofNat (x : Word) : x + 32 = BitVec.ofNat 64 (x.toNat + 32) := by
  rw [BitVec.ofNat_add, BitVec.ofNat_toNat, BitVec.setWidth_eq]
  rfl

/-- GROUP's writes in integer arithmetic modulo 2^64 (R120, R160). -/
theorem groupEffect_eq_integer (l0 l1 l2 l3 : Word) (s : State) : groupEffect l0 l1 l2 l3 s =
    { s with
      laneA := BitVec.ofNat 64 (roundNat s.laneA.toNat l0.toNat)
      laneB := BitVec.ofNat 64 (roundNat s.laneB.toNat l1.toNat)
      laneC := BitVec.ofNat 64 (roundNat s.laneC.toNat l2.toNat)
      laneD := BitVec.ofNat 64 (roundNat s.laneD.toNat l3.toNat)
      len := BitVec.ofNat 64 (s.len.toNat + 32) } := by
  simp only [groupEffect_eq, laneRound_eq_ofNat, add_32_eq_ofNat]

end Sys2Proof.Machine

namespace Sys2Proof.Safety

open Sys2Proof.Machine Sys2Proof.Claims

/-! ## Any number of groups -/

/-- R162: groups carry the lanes and LEN from one to the next, each lane apart, and nothing else. -/
theorem foldl_absorbGroup_eq (gs : List Words) (s : State) : gs.foldl absorbGroup s =
    { s with
      laneA := roundAll s.laneA (gs.map Words.l0)
      laneB := roundAll s.laneB (gs.map Words.l1)
      laneC := roundAll s.laneC (gs.map Words.l2)
      laneD := roundAll s.laneD (gs.map Words.l3)
      len := s.len + BitVec.ofNat 64 (32 * gs.length) } := by
  rw [← foldl_absorbGroup_len]
  induction gs generalizing s with
  | nil => rfl
  | cons g gs ih =>
    rw [List.foldl_cons, ih, absorbGroup, groupEffect_eq]
    rfl

/-- INIT and groups from any phase but FAULT, all accepted. -/
theorem runCommands_opened (seed : Word) (gs : List Words) {s : State} (hp : s.ph ≠ .fault) :
    runCommands (opened seed gs) s =
      .next (setPort [] (setPresented .nothing (gs.foldl absorbGroup (initEffect seed s)))) := by
  rw [← List.append_nil (opened seed gs), runCommands_opened_append seed gs [] hp, runCommands_nil]

end Sys2Proof.Safety
end

section
/-! PROOFS. The statements of spec/42_group.md settled, each from the lemmas of the parts above. -/

namespace Sys2Proof.Proofs

open Sys2Proof.Machine Sys2Proof.Safety

/-- Settles O18: the header selects GROUP with the payload's four words, a tail length makes the word
reserved, and the phase decides between the rounds, SEQUENCE and dropping the command. -/
theorem groupResult : Obligations.GroupResult := by
  unfold Obligations.GroupResult
  refine ⟨fun w hw => ⟨decode_of_group_header hw, ?_⟩,
    fun w hop hn => ⟨_, decode_of_group_op_length hop hn⟩,
    fun l0 l1 l2 l3 s => ⟨fun hp => ?_, fun hp => ?_, ?_⟩⟩
  · rw [groupOf_payBytes, decode_of_group_header hw]
  · rw [exec_group_of_absorb _ _ _ _ hp, groupEffect_eq_integer]
  · rw [exec_group_of_idle_or_done _ _ _ _ hp, enterFault_eq]
  · exact exec_group_of_fault l0 l1 l2 l3

/-- Settles O39: INIT writes the lanes, SEED, LEN and PH, and the groups then fold the rounds into each
lane and count 32 bytes each. -/
theorem lanesAfterGroups : Obligations.LanesAfterGroups := by
  unfold Obligations.LanesAfterGroups
  intro seed gs s hp
  rw [runCommands_opened seed gs hp]
  simp only [foldl_absorbGroup_eq, initEffect_eq_derived, setPresented_eq, setPort_eq, zero_add]

end Sys2Proof.Proofs
end

section
/-! PROOFS. FINAL (R170 to R176): its words, its tail by the counts of R176, and its effect in integer
arithmetic (statement FinalResult). -/

namespace Sys2Proof

open Sys2Proof.Claims

/-! ## The words of FINAL -/

/-- The headers 0x60 to 0x7F select FINAL's row (R95). -/
theorem finalHeader_of_toNat {h : BitVec 8} {n : Fin 32} (hh : h.toNat = 0x60 + n.val) :
    h &&& 0xE0#8 = 0x60#8 := by
  obtain rfl : h = BitVec.ofNat 8 (0x60 + n.val) := by
    rw [← hh, BitVec.ofNat_toNat, BitVec.setWidth_eq]
  revert n
  decide

section
variable {w : Cmd} {n : Fin 32}

theorem nOf_toNat_of_final_header (h : (headerOf w).toNat = 0x60 + n.val) :
    (nOf w).toNat = n.val := by
  obtain ⟨-, hn⟩ := finalHeader_fields (finalHeader_of_toNat h)
  rw [nOf_eq_header, hn, h, Nat.add_sub_cancel_left]

theorem decode_of_final_header_toNat (h : (headerOf w).toNat = 0x60 + n.val) :
    decode w = .ok (.final n (payBytes w n.val)) := by
  have hn := nOf_toNat_of_final_header h
  have hfin : (nOf w).toFin = n := Fin.ext hn
  rw [decode_of_final_header (finalHeader_of_toNat h), hn, hfin]

end

end Sys2Proof

namespace Sys2Proof.Machine

open Sys2Proof.Claims Sys2Proof.Safety

/-! ## The tail by its counts (R176) -/

/-- `PayRead` as the sum of R62, also where it runs past the end: the bytes missing there count as
zero on both sides. -/
theorem payRead_eq_sumLE (m : List Byte) (q w : Nat) :
    payRead m q w = BitVec.ofNat (8 * w) (sumLE m q w) := by
  have hlen : ((m.drop q).take w).length ≤ w := List.length_take_le ..
  have hmissing : ∀ i ∈ Finset.range w, i ∉ Finset.range ((m.drop q).take w).length →
      2 ^ (8 * i) * (((m.drop q).take w).getD i 0).toNat = 0 := by
    intro i _ hi
    have hge : ((m.drop q).take w).length ≤ i := by simpa only [Finset.mem_range, not_lt] using hi
    rw [List.getD_eq_default _ _ hge]
    rfl
  rw [payRead, sumLE, leNat_eq_sum, Finset.sum_subset (Finset.range_subset_range.mpr hlen) hmissing]
  refine congrArg _ (Finset.sum_congr rfl fun i hi => ?_)
  rw [getD_take_drop m q (Finset.mem_range.mp hi)]

/-- A read of one byte is that byte. -/
theorem payRead_one (m : List Byte) (q : Nat) : payRead m q 1 = m.getD q 0 := by
  rw [payRead_eq_sumLE]
  simp [sumLE]

section
variable (pay : List Byte) (n : Nat)

/-- The word loop runs once for each eight bytes left. -/
theorem absorb8_eq_foldl (fuel p : Nat) (h : Word) (hf : n - p ≤ fuel) :
    absorb8 pay n fuel p h = (p + 8 * ((n - p) / 8), (List.range ((n - p) / 8)).foldl
      (fun h t => tail8 h (BitVec.ofNat 64 (sumLE pay (p + 8 * t) 8))) h) := by
  induction fuel generalizing p h with
  | zero =>
    rw [absorb8_of_lt _ _ _ (by omega), Nat.div_eq_of_lt (by omega)]
    rfl
  | succ fuel ih =>
    by_cases h8 : 8 ≤ n - p
    · have hq : (n - p) / 8 = (n - (p + 8)) / 8 + 1 := by omega
      have hp (t : Nat) : p + 8 * (t + 1) = p + 8 + 8 * t := by omega
      rw [absorb8_of_le _ _ _ h8, ih _ _ (by omega), hq, List.range_succ_eq_map, List.foldl_cons,
        List.foldl_map, payRead_eq_sumLE]
      simp only [hp, Nat.mul_zero, Nat.add_zero]
    · rw [absorb8_of_lt _ _ _ h8, Nat.div_eq_of_lt (by omega)]
      rfl

/-- The four-byte step is taken as often as four bytes fit, which is once or not at all. -/
theorem absorb4_eq_foldl {p : Nat} (h : Word) (h8 : n - p < 8) :
    absorb4 pay n p h = (p + 4 * ((n - p) / 4), (List.range ((n - p) / 4)).foldl
      (fun h _ => tail4 h (BitVec.ofNat 32 (sumLE pay p 4))) h) := by
  rw [absorb4, payRead_eq_sumLE]
  split
  · have hq : (n - p) / 4 = 1 := by omega
    rw [hq]
    rfl
  · rw [Nat.div_eq_of_lt (by omega)]
    rfl

/-- The byte loop runs once for each byte left. -/
theorem absorb1_eq_foldl (fuel p : Nat) (h : Word) (hf : n - p ≤ fuel) :
    absorb1 pay n fuel p h =
      (List.range (n - p)).foldl (fun h r => tail1 h (pay.getD (p + r) 0)) h := by
  induction fuel generalizing p h with
  | zero =>
    rw [absorb1_of_ge _ _ _ (by omega), Nat.le_zero.mp hf]
    rfl
  | succ fuel ih =>
    by_cases hp : p < n
    · have hq : n - p = n - (p + 1) + 1 := by omega
      rw [absorb1_of_lt _ _ _ hp, ih _ _ (by omega), hq, List.range_succ_eq_map, List.foldl_cons,
        List.foldl_map, payRead_one]
      simp only [Nat.add_assoc, Nat.add_comm 1, Nat.add_zero]
    · rw [absorb1_of_ge _ _ _ hp, Nat.sub_eq_zero_of_le (by omega)]
      rfl

/-- The three loops of R170 take the words, the four-byte word and the bytes that R176 counts. -/
theorem absorbTail_eq_tailByCounts (h : Word) : absorbTail pay n h = tailByCounts n pay h := by
  have h4 : n - 8 * (n / 8) = n % 8 := by omega
  have h1 : n - (8 * (n / 8) + 4 * (n % 8 / 4)) = n % 4 := by omega
  simp only [absorbTail, tailByCounts, absorb8_eq_foldl pay n n 0 h (Nat.sub_le _ _), Nat.zero_add,
    Nat.sub_zero, absorb4_eq_foldl pay n _ (show n - 8 * (n / 8) < 8 by omega),
    absorb1_eq_foldl pay n n _ _ (Nat.sub_le _ _), h4, h1]

end

/-! ## The merge test (R171) -/

/-- The test on the counter is a test on the count modulo 2^64. -/
theorem merge_test_iff (k : Nat) : 32#64 ≤ BitVec.ofNat 64 k ↔ 32 ≤ k % 2 ^ 64 := by
  rw [BitVec.le_def, BitVec.toNat_ofNat, BitVec.toNat_ofNat]

/-- Below 2^64 bytes it is a test on the count itself (R180). -/
theorem merge_test_iff_of_lt {k : Nat} (hk : k < 2 ^ 64) : 32#64 ≤ BitVec.ofNat 64 k ↔ 32 ≤ k := by
  rw [merge_test_iff, Nat.mod_eq_of_lt hk]

theorem finalStart_ofNat (k : Nat) (s : State) : finalStart (BitVec.ofNat 64 k) s =
    if 32 ≤ k % 2 ^ 64 then mergeLanes s.laneA s.laneB s.laneC s.laneD else s.seed + prime5 := by
  simp only [finalStart, merge_test_iff]

/-! ## One FINAL -/

theorem add_ofNat_eq_ofNat (x : Word) (n : Nat) :
    x + BitVec.ofNat 64 n = BitVec.ofNat 64 (x.toNat + n) := by
  rw [BitVec.ofNat_add, BitVec.ofNat_toNat, BitVec.setWidth_eq]

/-- FINAL's writes with the counter in integer arithmetic and the tail by its counts (R170, R176). -/
theorem finalEffect_eq_counts (n : Nat) (tail : List Byte) (s : State) : finalEffect n tail s =
    { s with
      hash := avalanche (tailByCounts n tail
        ((if 32 ≤ (s.len.toNat + n) % 2 ^ 64 then mergeLanes s.laneA s.laneB s.laneC s.laneD
          else s.seed + prime5) + BitVec.ofNat 64 (s.len.toNat + n)))
      len := BitVec.ofNat 64 (s.len.toNat + n)
      ph := .done } := by
  rw [finalEffect_eq, add_ofNat_eq_ofNat, finalHash, absorbTail_eq_tailByCounts, finalStart_ofNat]

theorem exec_final_of_absorb (n : Fin 32) (tail : List Byte) {s : State} (hp : s.ph = .absorb) :
    exec (.final n tail) s = .next (finalEffect n.val tail s) :=
  (exec_final n tail s).trans (whenAbsorbing_of_absorb _ hp)

theorem exec_final_of_idle_or_done (n : Fin 32) (tail : List Byte) {s : State}
    (hp : s.ph = .idle ∨ s.ph = .done) : exec (.final n tail) s = .next (enterFault .sequence s) :=
  (exec_final n tail s).trans (whenAbsorbing_of_idle_or_done _ hp)

theorem exec_final_of_fault (n : Fin 32) (tail : List Byte) {s : State} (hp : s.ph = .fault) :
    exec (.final n tail) s = .next s :=
  (exec_final n tail s).trans (whenAbsorbing_of_fault _ hp)

theorem hashPort_of_done {s : State} (hp : s.ph = .done) : hashPort s = some s.hash := by
  rw [hashPort_eq, if_pos hp]

end Sys2Proof.Machine
end

section
/-! PROOFS. The commands of a whole message against the function `xxh64` (R180, R181; statements
HashOfMessage, MergeTestMeansGroupsSeen and EmptyMessage). -/

namespace Sys2Proof.Safety

open Sys2Proof.Machine Sys2Proof.Claims

/-! ## What INIT and groups leave in the registers that FINAL reads or keeps -/

@[simp] theorem foldl_absorbGroup_seed (gs : List Words) (s : State) :
    (gs.foldl absorbGroup s).seed = s.seed := by
  rw [foldl_absorbGroup_eq]

@[simp] theorem foldl_absorbGroup_fcode (gs : List Words) (s : State) :
    (gs.foldl absorbGroup s).fcode = s.fcode := by
  rw [foldl_absorbGroup_eq]

/-- LEN with the tail added is the number of bytes, modulo 2^64 (R33). -/
theorem len_add_tail (seed : Word) (gs : List Words) (n : Nat) (s : State) :
    (gs.foldl absorbGroup (initEffect seed s)).len + BitVec.ofNat 64 n =
      BitVec.ofNat 64 (32 * gs.length + n) := by
  rw [foldl_absorbGroup_len, initEffect_len, zero_add, ← BitVec.ofNat_add]

/-- For a message that is its length. -/
theorem len_add_message_tail (seed : Word) (m : List Byte) (s : State) :
    ((messageGroups m).foldl absorbGroup (initEffect seed s)).len + BitVec.ofNat 64 (m.length % 32) =
      BitVec.ofNat 64 m.length := by
  have hgroups : (messageGroups m).length = m.length / 32 := by simp [messageGroups]
  rw [len_add_tail, hgroups, Nat.div_add_mod]

/-! ## The lanes -/

/-- The four lanes of a core, as `xxh64` carries them. -/
def lanesOf (s : State) : Lanes where
  a := s.laneA
  b := s.laneB
  c := s.laneC
  d := s.laneD

theorem lanesOf_initEffect (seed : Word) (s : State) :
    lanesOf (initEffect seed s) = Lanes.start seed := by
  rw [initEffect_eq_derived]
  rfl

/-- A group is read from its own 32 bytes only (R63). -/
theorem groupWords_take (bytes : List Byte) : groupWords (bytes.take 32) = groupWords bytes := by
  simp only [groupWords]
  rw [payRead_take, payRead_take, payRead_take, payRead_take] <;> decide

theorem Lanes.absorb_eq (l : Lanes) (bytes : List Byte) : l.absorb bytes =
    { a := laneRound l.a (groupWords bytes).l0
      b := laneRound l.b (groupWords bytes).l1
      c := laneRound l.c (groupWords bytes).l2
      d := laneRound l.d (groupWords bytes).l3 } := (rfl)

theorem lanesOf_absorbGroup (bytes : List Byte) (s : State) :
    lanesOf (absorbGroup s (groupWords bytes)) = (lanesOf s).absorb (bytes.take 32) := by
  rw [Lanes.absorb_eq, groupWords_take, absorbGroup, groupEffect_eq]
  rfl

/-- The core's lanes follow those of `xxh64`, group by group. -/
theorem lanesOf_foldl_absorbGroup (seed : Word) (m : List Byte) (s : State) (g : Nat) :
    lanesOf (((List.range g).map fun j => groupWords (m.drop (32 * j))).foldl absorbGroup
      (initEffect seed s)) = Lanes.after seed m g := by
  induction g with
  | zero => exact lanesOf_initEffect seed s
  | succ g ih =>
    rw [List.range_succ, List.map_append, List.foldl_append, List.map_singleton, List.foldl_cons,
      List.foldl_nil, lanesOf_absorbGroup, ih, Lanes.after]

/-! ## The hash -/

/-- What FINAL computes after a message's groups is the function of R181: below 2^64 bytes the merge
test is on the length, the lanes are those of `xxh64`, and the loops are its walk through the tail. -/
theorem finalHash_message (seed : Word) {m : List Byte} (s : State) (hm : m.length < 2 ^ 64) :
    finalHash (m.length % 32) (leftover m) (BitVec.ofNat 64 m.length)
      ((messageGroups m).foldl absorbGroup (initEffect seed s)) = xxh64 seed m := by
  rw [finalHash, finalStart_ofNat, Nat.mod_eq_of_lt hm, foldl_absorbGroup_seed, initEffect_seed,
    ← leftover_length, absorbTail_eq_mixTail, xxh64, ← lanesOf_foldl_absorbGroup seed m s]
  rfl

theorem xxh64_nil (seed : Word) : xxh64 seed [] = avalanche (seed + prime5) := by
  simp [xxh64, mixTail, walkTail]

end Sys2Proof.Safety
end

section
/-! PROOFS. The statements of spec/43_final.md settled, each from the lemmas of the parts above. -/

namespace Sys2Proof.Proofs

open Sys2Proof.Machine Sys2Proof.Safety

/-- Settles O42: the commands end in the state of INIT, the message's groups and FINAL, whose HASH is
the value of `xxh64`. -/
theorem hashOfMessage : Obligations.HashOfMessage := by
  unfold Obligations.HashOfMessage
  intro seed m s hp hm
  refine ⟨_, runCommands_hashCommands seed m hp, ?_, ?_, ?_, ?_, ?_, ?_⟩
  · simp [endedWell, hashValid]
  · rw [hashPort_of_done (by simp)]
    simp [len_add_message_tail, finalHash_message seed s hm]
  · simp [len_add_message_tail]
  · simp
  · simp
  · simp

/-- Settles O19: the header selects FINAL with the first `n` payload bytes, and the phase decides between
the hash, SEQUENCE and dropping the command. -/
theorem finalResult : Obligations.FinalResult := by
  unfold Obligations.FinalResult
  refine ⟨fun w n => decode_of_final_header_toNat,
    fun n tail s _ => ⟨fun hp => ?_, fun hp => ?_, ?_⟩⟩
  · rw [exec_final_of_absorb n tail hp, finalEffect_eq_counts, mergeLanes, prime5]
  · rw [exec_final_of_idle_or_done n tail hp, enterFault_eq]
  · exact exec_final_of_fault n tail

/-- Settles O41: the counter below 2^64 is `32g + n` with `n < 32`, and INIT leaves the seed in SEED and
in lane C. -/
theorem mergeTestMeansGroupsSeen : Obligations.MergeTestMeansGroupsSeen := by
  unfold Obligations.MergeTestMeansGroupsSeen
  intro seed gs n s t hp hlt hrun
  obtain rfl := Host.Outcome.next.inj ((runCommands_opened seed gs hp).symm.trans hrun)
  refine ⟨?_, fun hg => ?_⟩
  · rw [setPort_len, setPresented_len, len_add_tail, merge_test_iff_of_lt hlt]
    omega
  · rw [List.length_eq_zero_iff.mp hg]
    simp

/-- Settles O45: the case of HashOfMessage with no bytes, where the start value is only scrambled. -/
theorem emptyMessage : Obligations.EmptyMessage := by
  unfold Obligations.EmptyMessage
  refine ⟨fun seed s hp => ⟨rfl, ?_⟩, by decide⟩
  obtain ⟨t, hrun, hend, hport, hlen, -, -, -⟩ := hashOfMessage seed [] s hp (by decide)
  have hdone : t.ph = .done := by simpa [endedWell, hashValid] using hend
  exact ⟨t, hrun, hdone, hlen, hport.trans (congrArg some (xxh64_nil seed))⟩

end Sys2Proof.Proofs
end

section
/-! PROOFS. What an accepted word does to FCODE, which steps enter FAULT and which leave it (R201, R204
to R207; statements StepRunsDecodedInstruction, OrderOfChecks, FaultCauses, FaultEntryIsPrecise,
FaultIsSticky), and runs, which never stop (RunNeverStops). -/

namespace Sys2Proof.Machine

open Sys2Proof.Claims

/-! ## The word accepted at an edge -/

/-- A command is accepted only where the host presents one (R40). -/
theorem PortEdge.valid_of_accepts {e : PortEdge} (h : e.accepts = true) : e.cmdValid = true := by
  unfold PortEdge.accepts at h
  cases hv : e.cmdValid <;> simp_all

@[simp] theorem taken_ph (e : PortEdge) (rest : List PortEdge) (s : State) :
    (taken e rest s).ph = s.ph := (rfl)

section
variable {e : PortEdge} {s : State}

/-- A word presented before and other than the one at the edge has changed (R248 H3). -/
theorem Presented.hold_eq_changed {p : Presented} (hv : e.cmdValid = true) (hn : p ≠ .nothing)
    (hs : p ≠ .steady e.cmd) : p.hold e = .changed := by
  cases p with
  | nothing => exact absurd rfl hn
  | steady w =>
    have hw : w ≠ e.cmd := fun h => hs (h ▸ rfl)
    simp [Presented.hold, hv, hw]
  | changed => simp [Presented.hold, hv]

theorem taken_of_steady (rest : List PortEdge)
    (h : s.presented = .nothing ∨ s.presented = .steady e.cmd) :
    taken e rest s = { s with port := rest, presented := .nothing } := by
  rw [taken, if_neg (Presented.hold_ne_changed h)]

theorem taken_of_changed (rest : List PortEdge) (h : s.presented.hold e = .changed) :
    taken e rest s = { s with port := rest, presented := .nothing, draws := s.draws + 1 } := by
  rw [taken, if_pos h]

end

/-! ## Raising a fault -/

theorem Phase.idle_or_done {p : Phase} (ha : p ≠ .absorb) (hf : p ≠ .fault) :
    p = .idle ∨ p = .done := by
  cases p <;> simp_all

/-- GROUP and FINAL in IDLE and DONE raise SEQUENCE (R201). -/
theorem exec_of_not_init {i : Instr} {s : State} (hi : ∀ seed, i ≠ .init seed)
    (hp : s.ph = .idle ∨ s.ph = .done) : exec i s = .next (enterFault .sequence s) := by
  cases i with
  | init seed => exact absurd rfl (hi seed)
  | group l0 l1 l2 l3 => exact exec_group_of_idle_or_done l0 l1 l2 l3 hp
  | final n tail => exact exec_final_of_idle_or_done n tail hp

/-- An accepted word out of FAULT raises RESERVED_CMD, raises SEQUENCE, or is a command of its phase,
which writes no FCODE and does not enter FAULT. -/
theorem acceptCommand_inv_of_ne {cmd : Cmd} {s t : State} (hp : s.ph ≠ .fault)
    (h : acceptCommand cmd s = .next t) :
    ((∃ r, decode cmd = .error r) ∧ t = enterFault .reservedCmd s) ∨
    ((s.ph = .idle ∨ s.ph = .done) ∧ (∃ i, decode cmd = .ok i ∧ ∀ seed, i ≠ .init seed) ∧
      t = enterFault .sequence s) ∨
    ((∃ i, decode cmd = .ok i ∧ ((∃ seed, i = .init seed) ∨ s.ph = .absorb)) ∧
      t.ph ≠ .fault ∧ t.fcode = s.fcode) := by
  rcases acceptCommand_cases cmd s with ⟨hf, -⟩ | ⟨-, hd, ha⟩ | ⟨-, i, hd, ha⟩
  · exact absurd hf hp
  · exact .inl ⟨hd, Host.Outcome.next.inj (h.symm.trans ha)⟩
  · rcases exec_inv (ha.symm.trans h) with ⟨hf, -⟩ | ⟨-, seed, hi, rfl⟩ |
      ⟨hq, l0, l1, l2, l3, -, rfl⟩ | ⟨hq, n, tail, -, rfl⟩ | ⟨hq, hi, rfl⟩
    · exact absurd hf hp
    · exact .inr (.inr ⟨⟨i, hd, .inl ⟨seed, hi⟩⟩, by simp, by simp⟩)
    · exact .inr (.inr ⟨⟨i, hd, .inr hq⟩, by simp [hq], by simp⟩)
    · exact .inr (.inr ⟨⟨i, hd, .inr hq⟩, by simp, by simp⟩)
    · exact .inr (.inl ⟨hq, ⟨i, hd, hi⟩, rfl⟩)

/-- The headers of GROUP and FINAL, the commands that can be out of sequence (R95, R201). -/
def sequencedHeader (h : Nat) : Prop := h = 0x40 ∨ 0x60 ≤ h ∧ h ≤ 0x7F

theorem sequencedHeader_iff (h : BitVec 8) :
    sequencedHeader h.toNat ↔ h = 0x40#8 ∨ h &&& 0xE0#8 = 0x60#8 := by
  unfold sequencedHeader
  revert h
  decide +kernel

/-- A command is out of sequence in IDLE and DONE exactly where its header is GROUP's or FINAL's. -/
theorem not_init_iff_sequencedHeader {w : Cmd} {i : Instr} (h : decode w = .ok i) :
    (∀ seed, i ≠ .init seed) ↔ sequencedHeader (headerOf w).toNat := by
  rw [sequencedHeader_iff]
  rcases decode_inv h with ⟨hw, rfl⟩ | ⟨hw, rfl⟩ | ⟨hw, rfl⟩ <;> simp [hw]

theorem not_sequencedHeader_of_reserved {h : BitVec 8} (hr : reservedHeader h.toNat = true) :
    ¬ sequencedHeader h.toNat := by
  obtain ⟨-, hg, hf⟩ := (reservedHeader_iff h).mp hr
  rw [sequencedHeader_iff]
  exact not_or_intro hg hf

theorem not_reservedHeader_of_decode {w : Cmd} {i : Instr} (h : decode w = .ok i) :
    reservedHeader (headerOf w).toNat ≠ true := by
  rw [Ne, ← decode_error_iff, h]
  simp

/-! ## Steps into FAULT and out of it -/

/-- A step enters FAULT only by accepting a word, which raises one of the two faults (R201, R204). -/
theorem step_into_fault {s t : State} (h : step s = .next t) (hs : s.ph ≠ .fault)
    (ht : t.ph = .fault) : ∃ e rest k, s.port = e :: rest ∧ (k = .reservedCmd ∨ k = .sequence) ∧
      t = enterFault k (taken e rest s) := by
  cases hp : s.port with
  | nil =>
    rw [← Host.Outcome.next.inj ((step_of_nil hp).symm.trans h)] at ht
    exact absurd ht hs
  | cons e rest =>
    cases hr : e.rst with
    | true =>
      rw [← Host.Outcome.next.inj ((step_of_reset hp hr).symm.trans h)] at ht
      simp at ht
    | false =>
      cases ha : e.accepts with
      | false =>
        rw [← Host.Outcome.next.inj ((step_of_not_accepts hp hr ha).symm.trans h)] at ht
        exact absurd ht hs
      | true =>
        rw [step_of_accepts hp ha] at h
        rcases acceptCommand_inv_of_ne (s := taken e rest s) hs h with ⟨-, rfl⟩ | ⟨-, -, rfl⟩ |
          ⟨-, hn, -⟩
        · exact ⟨e, rest, _, rfl, .inl rfl, rfl⟩
        · exact ⟨e, rest, _, rfl, .inr rfl, rfl⟩
        · exact absurd ht hn

/-- An edge without reset, in FAULT, writes no register: only what is presented and the count of free
values drawn may change (R206). -/
theorem clockEdge_of_fault {e : PortEdge} {s : State} (hp : s.ph = .fault) (hr : e.rst = false) :
    ∃ p d, clockEdge e s = .next { s with presented := p, draws := d } := by
  cases ha : e.accepts with
  | false => exact ⟨_, s.draws, clockEdge_of_not_accepts s hr ha⟩
  | true =>
    refine ⟨.nothing, (endPresentation e s).draws, ?_⟩
    rw [clockEdge_of_accepts s ha, acceptCommand_of_fault _ (by simpa using hp), ← endPresentation_eq]

/-- Only a reset edge leaves FAULT (R206, R230). -/
theorem step_out_of_fault {s t : State} (h : step s = .next t) (hs : s.ph = .fault)
    (ht : t.ph ≠ .fault) : ∃ e rest, s.port = e :: rest ∧ e.rst = true ∧ t.ph = .idle ∧
      t.fcode = .noFault := by
  cases hp : s.port with
  | nil =>
    rw [← Host.Outcome.next.inj ((step_of_nil hp).symm.trans h)] at ht
    exact absurd hs ht
  | cons e rest =>
    refine ⟨e, rest, rfl, ?_⟩
    cases hr : e.rst with
    | true =>
      rw [← Host.Outcome.next.inj ((step_of_reset hp hr).symm.trans h)]
      simp
    | false =>
      obtain ⟨p, d, hc⟩ := clockEdge_of_fault (s := setPort rest s) hs hr
      rw [← Host.Outcome.next.inj (hc.symm.trans ((step_of_cons hp).symm.trans h))] at ht
      exact absurd hs ht

end Sys2Proof.Machine

namespace Sys2Proof.Safety

open Sys2Proof.Machine

/-- A run of edges without reset, from FAULT, writes no register (R206). -/
theorem runEdges_of_fault {edges : List PortEdge} {s : State} (hp : s.ph = .fault)
    (hr : ∀ e ∈ edges, e.rst = false) :
    ∃ p d, runEdges edges s = .next { s with port := [], presented := p, draws := d } := by
  induction edges generalizing s with
  | nil => exact ⟨_, _, runEdges_nil s⟩
  | cons e rest ih =>
    obtain ⟨hre, hrest⟩ := List.forall_mem_cons.mp hr
    obtain ⟨p, d, hc⟩ := clockEdge_of_fault hp hre
    rw [runEdges_cons rest hc]
    exact ih (s := { s with presented := p, draws := d }) hp hrest

/-- Every run answers a next state, since every step does. -/
theorem run_next (k : Nat) (s : State) : ∃ t, run k s = .next t := by
  induction k generalizing s with
  | zero => exact ⟨s, run_zero s⟩
  | succ k ih =>
    obtain ⟨u, hu⟩ := step_next s
    rw [run_succ k hu]
    exact ih u

end Sys2Proof.Safety
end

section
/-! PROOFS. A host that holds `cmd` stable while it is presented (R205, R216, R248 H3; statement
WaitingEdgesAreInvisible): an edge leaves the registers that its event leaves with nothing presented. -/

namespace Sys2Proof.Safety

open Sys2Proof.Machine

/-! ## Such a host's edges -/

/-- Nothing stands presented, or a word that the first of the edges, if it presents one, presents
again. -/
def PresentedStably (p : Presented) (edges : List PortEdge) : Prop :=
  p = .nothing ∨ ∃ w, p = .steady w ∧ ∀ e ∈ edges.head?, e.cmdValid = true → e.cmd = w

theorem PresentedStably.nothing_or_steady {p : Presented} {e : PortEdge} {rest : List PortEdge}
    (h : PresentedStably p (e :: rest)) (hv : e.cmdValid = true) : p = .nothing ∨ p = .steady e.cmd := by
  rcases h with h | ⟨w, h, hw⟩
  · exact .inl h
  · exact .inr (by rw [h, hw e rfl hv])

theorem commandStable_cons_cons (e f : PortEdge) (rest : List PortEdge) :
    commandStable (e :: f :: rest) =
      ((!e.cmdValid || e.accepts || !f.cmdValid || f.cmd == e.cmd) && commandStable (f :: rest)) := rfl

theorem commandStable_tail {e : PortEdge} {rest : List PortEdge}
    (h : commandStable (e :: rest) = true) : commandStable rest = true := by
  cases rest with
  | nil => rfl
  | cons f rest =>
    rw [commandStable_cons_cons, Bool.and_eq_true] at h
    exact h.2

/-- A word that waits at an edge is the word of the next edge that presents one (R248 H3). -/
theorem cmd_eq_of_commandStable {e f : PortEdge} {rest : List PortEdge}
    (h : commandStable (e :: rest) = true) (hv : e.cmdValid = true) (ha : e.accepts = false)
    (hf : f ∈ rest.head?) (hfv : f.cmdValid = true) : f.cmd = e.cmd := by
  cases rest with
  | nil => simp at hf
  | cons g rest =>
    obtain rfl : g = f := by simpa using hf
    simp only [commandStable_cons_cons, hv, ha, hfv, Bool.not_true, Bool.or_self, Bool.false_or,
      Bool.and_eq_true, beq_iff_eq] at h
    exact h.1

/-- An edge that accepts nothing leaves presented what the host held there. -/
theorem presented_of_clockEdge_not_accepts {e : PortEdge} {s t : State} (ha : e.accepts = false)
    (h : clockEdge e s = .next t) : t.presented = s.presented.hold e := by
  cases hr : e.rst with
  | true => simp [← Host.Outcome.next.inj ((clockEdge_of_reset s hr).symm.trans h)]
  | false => simp [← Host.Outcome.next.inj ((clockEdge_of_not_accepts s hr ha).symm.trans h)]

theorem PresentedStably.after_clockEdge {e : PortEdge} {rest : List PortEdge} {s t : State}
    (hp : PresentedStably s.presented (e :: rest)) (hst : commandStable (e :: rest) = true)
    (h : clockEdge e s = .next t) : PresentedStably t.presented rest := by
  cases ha : e.accepts with
  | true => exact .inl (presented_of_clockEdge_accepts ha h)
  | false =>
    rw [presented_of_clockEdge_not_accepts ha h]
    cases hv : e.cmdValid with
    | false => exact .inl (Presented.hold_of_not_valid _ hv)
    | true =>
      exact .inr ⟨e.cmd, hold_of_valid (hp.nothing_or_steady hv) hv,
        fun f hf hfv => cmd_eq_of_commandStable hst hv ha hf hfv⟩

/-! ## An edge and its event -/

section
variable {e : PortEdge} (rest : List PortEdge)

theorem eventful_cons_of_reset (h : e.rst = true) :
    eventful (e :: rest) = resetEdge :: eventful rest := by
  simp [eventful, event, h]

theorem eventful_cons_of_accepts (h : e.accepts = true) :
    eventful (e :: rest) = acceptEdge e.cmd :: eventful rest := by
  simp [eventful, event, h, PortEdge.rst_of_accepts h]

theorem eventful_cons_of_not_accepts (hr : e.rst = false) (ha : e.accepts = false) :
    eventful (e :: rest) = eventful rest := by
  simp [eventful, event, hr, ha]

end

/-- A reset edge writes the same registers, and draws as often, whatever is presented. -/
theorem clockEdge_resetEdge {e : PortEdge} {s t : State} (hr : e.rst = true)
    (h : clockEdge e s = .next t) :
    clockEdge resetEdge (setPresented .nothing s) = .next (setPresented .nothing t) := by
  rw [clockEdge_of_reset _ (e := resetEdge) rfl,
    ← Host.Outcome.next.inj ((clockEdge_of_reset s hr).symm.trans h)]
  simp [resetEdge]

/-- One edge of a stable host, against its event with nothing presented. -/
theorem runEdges_eventful_cons {e : PortEdge} {rest : List PortEdge} {s t : State}
    (hp : PresentedStably s.presented (e :: rest)) (h : clockEdge e s = .next t) :
    runEdges (eventful (e :: rest)) (setPresented .nothing s) =
      runEdges (eventful rest) (setPresented .nothing t) := by
  cases hr : e.rst with
  | true =>
    rw [eventful_cons_of_reset rest hr, runEdges_cons _ (clockEdge_resetEdge hr h)]
  | false =>
    cases ha : e.accepts with
    | true =>
      have hself : setPresented .nothing t = t := by
        rw [← presented_of_clockEdge_accepts ha h, setPresented_self]
      rw [clockEdge_of_accepts_held ha (hp.nothing_or_steady (PortEdge.valid_of_accepts ha))] at h
      rw [eventful_cons_of_accepts rest ha, runEdges_cons _ h, hself]
    | false =>
      rw [eventful_cons_of_not_accepts rest hr ha,
        ← Host.Outcome.next.inj ((clockEdge_of_not_accepts s hr ha).symm.trans h),
        setPresented_setPresented]

/-- The run of a stable host and the run of its events alone end with the same registers. -/
theorem runEdges_eventful {edges : List PortEdge} {s : State} (hp : PresentedStably s.presented edges)
    (hst : commandStable edges = true) : ∃ t, runEdges edges s = .next t ∧
      runEdges (eventful edges) (setPresented .nothing s) = .next (setPresented .nothing t) := by
  induction edges generalizing s with
  | nil => exact ⟨_, runEdges_nil s, runEdges_nil _⟩
  | cons e rest ih =>
    obtain ⟨u, hu⟩ := clockEdge_next e s
    obtain ⟨t, hrun, hevents⟩ := ih (hp.after_clockEdge hst hu) (commandStable_tail hst)
    exact ⟨t, (runEdges_cons rest hu).trans hrun, (runEdges_eventful_cons hp hu).trans hevents⟩

end Sys2Proof.Safety
end

section
/-! PROOFS. The statements of spec/60_exceptions.md settled, each from the lemmas of the parts above. -/

namespace Sys2Proof.Proofs

open Sys2Proof.Machine Sys2Proof.Safety Sys2Proof.Claims

/-- Settles O29, by induction on the edges: each leaves the registers its event leaves. -/
theorem waitingEdgesAreInvisible : Obligations.WaitingEdgesAreInvisible := by
  unfold Obligations.WaitingEdgesAreInvisible
  intro edges s hs hst
  obtain ⟨t, hrun, hevents⟩ := runEdges_eventful (.inl hs) hst
  rw [← hs, setPresented_self, hs] at hevents
  exact ⟨t, hrun, hevents⟩

/-- Settles O23, by the checks in their order. -/
theorem orderOfChecks : Obligations.OrderOfChecks := by
  unfold Obligations.OrderOfChecks
  intro s e rest hp
  refine ⟨fun hr => ⟨_, step_of_reset hp hr, by simp⟩, fun hr hnot => ?_, fun hr hv hrdy => ?_⟩
  · have ha : e.accepts = false :=
      hnot.elim PortEdge.not_accepts_of_not_valid PortEdge.not_accepts_of_not_ready
    rw [step_of_not_accepts hp hr ha, setPresented_eq, setPort_eq]
  · rw [step_of_accepts hp (PortEdge.accepts_of_ready hr hv hrdy)]
    refine ⟨fun hf => acceptCommand_of_fault _ hf,
      fun hf => ⟨fun r hd => ?_, fun i hd => ⟨fun hi hna => ?_, fun _ => ?_⟩⟩⟩
    · rw [acceptCommand_of_reserved (s := taken e rest s) hd hf, enterFault_eq]
    · have hq := Phase.idle_or_done hna hf
      rw [acceptCommand_of_decode _ hd, exec_of_not_init (s := taken e rest s) hi hq, enterFault_eq]
    · exact acceptCommand_of_decode _ hd

/-- Settles O25, by the three outcomes of a word accepted out of FAULT: the two faults, whose headers
exclude each other, and a command of its phase. -/
theorem faultCauses : Obligations.FaultCauses := by
  unfold Obligations.FaultCauses
  intro s t e rest hp ha hf hk h
  rw [step_of_accepts hp ha] at h
  rcases acceptCommand_inv_of_ne (s := taken e rest s) hf h with ⟨hd, rfl⟩ | ⟨hq, ⟨i, hd, hi⟩, rfl⟩ |
    ⟨⟨i, hd, hi⟩, -, hkt⟩
  · have hres := (decode_error_iff _).mp hd
    have hseq := not_sequencedHeader_of_reserved hres
    exact ⟨iff_of_true rfl hres, iff_of_false (by simp [FaultCode.bits]) fun h => hseq h.2,
      fun _ => enterFault_eq ..⟩
  · have hres := not_reservedHeader_of_decode hd
    have hseq := (not_init_iff_sequencedHeader hd).mp hi
    exact ⟨iff_of_false (by simp [FaultCode.bits]) hres, iff_of_true rfl ⟨hq, hseq⟩,
      fun _ => enterFault_eq ..⟩
  · have hres := not_reservedHeader_of_decode hd
    have hclear : t.fcode = .noFault := hkt.trans hk
    have hseq : ¬ ((s.ph = .idle ∨ s.ph = .done) ∧
        sequencedHeader (headerOf (acceptedWord e s)).toNat) := by
      rintro ⟨hq, hh⟩
      rcases hi with ⟨seed, rfl⟩ | habs
      · exact (not_init_iff_sequencedHeader hd).mpr hh seed rfl
      · rw [taken_ph] at habs
        simp [habs] at hq
    rw [hclear]
    exact ⟨iff_of_false (by decide) hres, iff_of_false (by decide) hseq, fun h => absurd rfl h⟩

/-- Settles O26: only an accepted word enters FAULT, through `enterFault`. -/
theorem faultEntryIsPrecise : Obligations.FaultEntryIsPrecise := by
  unfold Obligations.FaultEntryIsPrecise
  intro s t h hs ht
  obtain ⟨e, rest, k, hp, hk, rfl⟩ := step_into_fault h hs ht
  refine ⟨?_, hk, ?_, ?_, ?_⟩
  · rw [enterFault_eq, taken, hp, List.tail_cons]
  · simp [faultPort]
  · simp [hashValid]
  · simp [hashPort, hashValid]

/-- Settles O27: an edge without reset writes no register in FAULT, so neither do any number of them,
and the step that leaves it is a reset. -/
theorem faultIsSticky : Obligations.FaultIsSticky := by
  unfold Obligations.FaultIsSticky
  refine ⟨fun edges s hp hr => ?_, fun s t hs h ht => ?_⟩
  · obtain ⟨p, d, hrun⟩ := runEdges_of_fault hp hr
    exact ⟨_, hrun, rfl⟩
  · obtain ⟨e, rest, hp, hr, hidle, hk⟩ := step_out_of_fault h hs ht
    exact ⟨⟨e, rest, hp, hr⟩, hidle, hk⟩

/-- Settles O32, by induction on the number of steps. -/
theorem runNeverStops : Obligations.RunNeverStops := by
  unfold Obligations.RunNeverStops
  exact run_next

/-- Settles O22: the word accepted is the one at the edge, or the free word where the host changed it. -/
theorem stepRunsDecodedInstruction : Obligations.StepRunsDecodedInstruction := by
  unfold Obligations.StepRunsDecodedInstruction
  intro s e rest i hp hr hv hrdy
  rw [step_of_accepts hp (PortEdge.accepts_of_ready hr hv hrdy)]
  refine ⟨fun hsteady hd => ?_, fun hn hs hd => ?_⟩
  · rw [(acceptedWord_of_steady hsteady).1, acceptCommand_of_decode _ hd, taken_of_steady rest hsteady]
  · have hch := Presented.hold_eq_changed hv hn hs
    rw [(acceptedWord_of_changed hch).1, acceptCommand_of_decode _ hd, taken_of_changed rest hch]

end Sys2Proof.Proofs
end

section
/-! PROOFS. Streaming with carry-over (R237, R241): what a host has sent after any chunks is what it
would have sent for their concatenation (statements ChunkingNeverMatters and
CancelledStreamShowsNothing). -/

namespace Sys2Proof.Machine

open Sys2Proof.Claims Sys2Proof.Safety

/-! ## Groups at the front of a message -/

section
variable {p : List Byte} {k : Nat} (hp : p.length = 32 * k) (r : List Byte)
include hp

/-- Whole groups at the front are cut off before the rest is cut into groups. -/
theorem groupsOf_append_of_length : groupsOf (p ++ r) = groupsOf p ++ groupsOf r := by
  have hpr : (p ++ r).length / 32 = k + r.length / 32 := by
    rw [List.length_append, hp]
    omega
  have hk : p.length / 32 = k := by omega
  have hfront : ∀ j ∈ List.range k,
      groupOf ((p ++ r).drop (32 * j)) = groupOf (p.drop (32 * j)) := by
    intro j hj
    have hj' : j < k := List.mem_range.mp hj
    have hlen : 32 ≤ (p.drop (32 * j)).length := by
      rw [List.length_drop]
      omega
    rw [List.drop_append_of_le_length (by omega), ← groupOf_take, List.take_append_of_le_length hlen,
      groupOf_take]
  have hback (j : Nat) : (p ++ r).drop (32 * (k + j)) = r.drop (32 * j) := by
    rw [Nat.mul_add, ← hp, List.drop_length_add_append]
  simp only [groupsOf, hpr, hk, List.range_add, List.map_append, List.map_map]
  rw [List.map_congr_left hfront]
  refine congrArg _ (List.map_congr_left fun j _ => ?_)
  rw [Function.comp_apply, hback]

theorem leftover_append_of_length : leftover (p ++ r) = leftover r := by
  have hpr : 32 * ((p ++ r).length / 32) = p.length + 32 * (r.length / 32) := by
    rw [List.length_append, hp]
    omega
  rw [leftover, hpr, List.drop_length_add_append, leftover]

end

theorem groupsOf_of_lt {bytes : List Byte} (h : bytes.length < 32) : groupsOf bytes = [] := by
  rw [groupsOf, Nat.div_eq_of_lt h, List.range_zero, List.map_nil]

theorem leftover_of_lt {bytes : List Byte} (h : bytes.length < 32) : leftover bytes = bytes := by
  rw [leftover, Nat.div_eq_of_lt h, Nat.mul_zero, List.drop_zero]

theorem leftover_length_lt (bytes : List Byte) : (leftover bytes).length < 32 := by
  rw [leftover_length]
  exact Nat.mod_lt _ (by decide)

/-! ## One chunk after another -/

/-- A message is whole groups and what is left over. -/
theorem eq_groups_append_leftover (m : List Byte) :
    ∃ p, p.length = 32 * (m.length / 32) ∧ m = p ++ leftover m :=
  ⟨m.take (32 * (m.length / 32)), List.length_take_of_le (by omega), (List.take_append_drop ..).symm⟩

/-- The groups of two pieces: those of the first, then those of its rest and the second (R237). -/
theorem groupsOf_append (x y : List Byte) :
    groupsOf (x ++ y) = groupsOf x ++ groupsOf (leftover x ++ y) := by
  obtain ⟨p, hp, hx⟩ := eq_groups_append_leftover x
  have hgroups : groupsOf x = groupsOf p := by
    rw [hx, groupsOf_append_of_length hp, groupsOf_of_lt (leftover_length_lt x), List.append_nil]
  conv_lhs => rw [hx]
  rw [List.append_assoc, groupsOf_append_of_length hp, hgroups]

theorem leftover_append (x y : List Byte) : leftover (x ++ y) = leftover (leftover x ++ y) := by
  obtain ⟨p, hp, hx⟩ := eq_groups_append_leftover x
  conv_lhs => rw [hx]
  rw [List.append_assoc, leftover_append_of_length hp]

/-! ## The streaming hosts -/

/-- Before the end of the data a host has sent the groups of all it has read, its carry included. -/
theorem cancelledFrom_eq {carry : List Byte} (h : carry.length < 32) (chunks : List (List Byte)) :
    cancelledFrom carry chunks = groupsOf (carry ++ chunks.flatten) := by
  induction chunks generalizing carry with
  | nil => rw [cancelledFrom, List.flatten_nil, List.append_nil, groupsOf_of_lt h]
  | cons chunk rest ih =>
    rw [cancelledFrom, ih (leftover_length_lt _), List.flatten_cons, ← List.append_assoc,
      ← groupsOf_append]

/-- A stream that ends has sent what a cancelled one sends, and the FINAL of what it then carries. -/
theorem streamFrom_eq {carry : List Byte} (h : carry.length < 32) (chunks : List (List Byte)) :
    streamFrom carry chunks =
      cancelledFrom carry chunks ++ [finalOf (leftover (carry ++ chunks.flatten))] := by
  induction chunks generalizing carry with
  | nil =>
    rw [streamFrom, cancelledFrom, List.flatten_nil, List.append_nil, leftover_of_lt h,
      List.nil_append]
  | cons chunk rest ih =>
    rw [streamFrom, cancelledFrom, ih (leftover_length_lt _), List.flatten_cons,
      List.append_assoc, ← List.append_assoc carry, leftover_append (carry ++ chunk)]

/-- The commands of a stream cut short are INIT and the groups of what was read (R241). -/
theorem cancelledCommands_eq_opened (seed : Word) (chunks : List (List Byte)) :
    cancelledCommands seed chunks = opened seed (messageGroups chunks.flatten) := by
  rw [cancelledCommands, cancelledFrom_eq (by decide), List.nil_append, opened, messageGroups,
    List.map_map]
  rfl

end Sys2Proof.Machine
end

section
/-! PROOFS. Edges at which the core is busy (R250; statement LatencyIsInvisible), and the word accepted
after an edge at which it waits (R248 H3, U13; statement ChangedWordIsUnspecified). -/

namespace Sys2Proof.Machine

/-! ## An edge that accepts, after one that does not -/

/-- A word that is presented leaves that word or a changed one presented. -/
theorem Presented.hold_of_valid_cases (p : Presented) {e : PortEdge} (hv : e.cmdValid = true) :
    p.hold e = .steady e.cmd ∨ p.hold e = .changed := by
  by_cases h : p = .nothing ∨ p = .steady e.cmd
  · exact .inl (hold_of_valid h hv)
  · exact .inr (Presented.hold_eq_changed hv (mt .inl h) (mt .inr h))

/-- An edge that accepts a changed word takes nothing from what the host drives there (U13). -/
theorem clockEdge_of_accepts_changed {e : PortEdge} {s : State} (ha : e.accepts = true)
    (h : s.presented.hold e = .changed) : clockEdge e s =
      acceptCommand (Config.changedWord s.draws) (countDraw (setPresented .nothing s)) := by
  obtain ⟨hw, he⟩ := acceptedWord_of_changed h
  rw [clockEdge_of_accepts s ha, hw, he]

/-- After an edge at which a word waits, an edge that accepts another word takes a changed one. -/
theorem hold_hold_eq_changed (p : Presented) {e f : PortEdge} (hv : e.cmdValid = true)
    (ha : f.accepts = true) (hne : f.cmd ≠ e.cmd) : (p.hold e).hold f = .changed := by
  have hfv := PortEdge.valid_of_accepts ha
  rcases Presented.hold_of_valid_cases p hv with h | h <;> rw [h]
  · exact Presented.hold_eq_changed hfv (by simp) (by simpa using hne.symm)
  · exact Presented.hold_eq_changed hfv (by simp) (by simp)

/-- Nothing is presented after an edge that presents nothing, and a word presented afresh stands as it
is. -/
theorem hold_of_not_valid_or_fresh {p : Presented} {e f : PortEdge}
    (h : e.cmdValid = false ∨ p = .nothing ∧ e.cmd = f.cmd) :
    p.hold e = .nothing ∨ p.hold e = .steady f.cmd := by
  cases hv : e.cmdValid with
  | false => exact .inl (Presented.hold_of_not_valid p hv)
  | true =>
    obtain ⟨hp, hcmd⟩ := h.resolve_left (by simp [hv])
    exact .inr (hcmd ▸ hold_of_valid (.inl hp) hv)

end Sys2Proof.Machine

namespace Sys2Proof.Safety

open Sys2Proof.Machine

/-! ## Runs that begin alike -/

/-- What two edges leave alike, the same further edges do not tell apart. -/
theorem runEdges_cons_congr {e f : PortEdge} {s t : State} (es : List PortEdge)
    (h : clockEdge e s = clockEdge f t) : runEdges (e :: es) s = runEdges (f :: es) t := by
  obtain ⟨u, hu⟩ := clockEdge_next e s
  rw [runEdges_cons es hu, runEdges_cons es (h.symm.trans hu)]

/-! ## Busy edges -/

/-- Busy edges go on the run of edges that an accepted command starts (R250). -/
theorem readyDiscipline_replicate_busyEdge (n : Nat) (es : List PortEdge) :
    readyDiscipline true (List.replicate n busyEdge ++ es) = readyDiscipline true es := by
  induction n with
  | zero => rfl
  | succ n ih => exact ih

theorem readyDiscipline_paced (busy : Bool) (words : List (Cmd × Nat)) :
    readyDiscipline busy (paced words) = true := by
  induction words generalizing busy with
  | nil => cases busy <;> rfl
  | cons p rest ih =>
    have haccept (es : List PortEdge) :
        readyDiscipline busy (acceptEdge p.1 :: es) = readyDiscipline true es := by
      cases busy <;> rfl
    rw [paced, haccept, readyDiscipline_replicate_busyEdge, ih]

/-- Where nothing stands presented, busy edges leave no trace. -/
theorem runEdges_replicate_busyEdge (n : Nat) (es : List PortEdge) {s : State}
    (hs : s.presented = .nothing) :
    runEdges (List.replicate n busyEdge ++ es) s = runEdges es s := by
  induction n with
  | zero => rfl
  | succ n ih =>
    have hbusy : clockEdge busyEdge s = .next s := by
      rw [clockEdge_of_not_accepts (e := busyEdge) s rfl rfl, Presented.hold_of_not_valid _ rfl, ← hs,
        setPresented_self]
    rw [List.replicate_succ, List.cons_append, runEdges_cons _ hbusy, ih]

/-- Each accepted word leaves nothing presented, so the busy edges after it leave no trace. -/
theorem runEdges_paced (words : List (Cmd × Nat)) (s : State) :
    runEdges (paced words) s = runEdges (words.map fun p => acceptEdge p.1) s := by
  induction words generalizing s with
  | nil => rfl
  | cons p rest ih =>
    obtain ⟨t, ht⟩ := clockEdge_next (acceptEdge p.1) s
    have hnothing : t.presented = .nothing := presented_of_clockEdge_accepts rfl ht
    rw [paced, List.map_cons, runEdges_cons _ ht, runEdges_cons _ ht,
      runEdges_replicate_busyEdge p.2 _ hnothing, ih]

end Sys2Proof.Safety
end

section
/-! PROOFS. A short message's hash as a function of the seed (R253; statement
ShortHashIsBijectiveInSeed). -/

namespace Sys2Proof.Safety

open Sys2Proof.Machine

/-- A walk whose steps are bijections of the working word is one too. The induction follows the walk, so
it wants a working word to start from; any will do. -/
theorem walkTail_bijective {α : Type} [Inhabited α] {f8 f4 f1 : α → List Byte → α}
    (h8 : ∀ bs, Function.Bijective fun h => f8 h bs) (h4 : ∀ bs, Function.Bijective fun h => f4 h bs)
    (h1 : ∀ bs, Function.Bijective fun h => f1 h bs) (bytes : List Byte) :
    Function.Bijective fun h => walkTail f8 f4 f1 h bytes := by
  induction (default : α), bytes using walkTail.induct f8 f4 f1 with
  | case1 h b0 b1 b2 b3 b4 b5 b6 b7 rest ih =>
    simp only [walkTail]
    exact ih.comp (h8 _)
  | case2 h b0 b1 b2 b3 rest _ ih =>
    simp only [walkTail]
    exact ih.comp (h4 _)
  | case3 h b0 rest _ _ ih =>
    simp only [walkTail]
    exact ih.comp (h1 _)
  | case4 =>
    simp only [walkTail]
    exact Function.bijective_id

/-- For each tail the tail steps are a bijection of the working word (R133). -/
theorem mixTail_bijective (bytes : List Byte) : Function.Bijective fun h => mixTail h bytes :=
  walkTail_bijective (fun _ => tail8_bijective _) (fun _ => tail4_bijective _)
    (fun _ => tail1_bijective _) bytes

/-- On the short path the lanes are not read, and the whole message is the tail (R171). -/
theorem xxh64_of_lt (seed : Word) {m : List Byte} (h : m.length < 32) :
    xxh64 seed m = avalanche (mixTail (seed + prime5 + BitVec.ofNat 64 m.length) m) := by
  rw [xxh64, if_neg (by omega), Nat.div_eq_of_lt h, Nat.mul_zero, List.drop_zero]

theorem xxh64_bijective_seed {m : List Byte} (h : m.length < 32) :
    Function.Bijective fun seed => xxh64 seed m := by
  simp only [xxh64_of_lt _ h]
  exact avalanche_bijective.comp <| (mixTail_bijective m).comp <|
    (AddGroup.addRight_bijective (BitVec.ofNat 64 m.length)).comp (AddGroup.addRight_bijective prime5)

end Sys2Proof.Safety
end

section
/-! PROOFS. The statements of spec/70_reset_and_hazards.md settled, each from the lemmas of the parts
above. -/

namespace Sys2Proof.Proofs

open Sys2Proof.Machine Sys2Proof.Safety

/-- What the port shows after HASH is the value of `xxh64` (statement HashOfMessage). -/
theorem hashAfter_eq (seed : Word) {m : List Byte} {s : State} (hp : s.ph ≠ .fault)
    (hm : m.length < 2 ^ 64) : hashAfter seed m s = some (xxh64 seed m) := by
  obtain ⟨t, hrun, -, hport, -⟩ := hashOfMessage seed m s hp hm
  rw [hashAfter, hrun]
  exact hport

/-- Settles O44: the groups sent chunk by chunk are those of the concatenation, and FINAL carries what is
left over of it. -/
theorem chunkingNeverMatters : Obligations.ChunkingNeverMatters := by
  unfold Obligations.ChunkingNeverMatters
  intro seed chunks
  rw [streamCommands, streamFrom_eq (by decide), cancelledFrom_eq (by decide), List.nil_append,
    hashCommands, List.cons_append]

/-- Settles O28: a reset edge accepts nothing and clears PH and FCODE, and only it leaves FAULT. -/
theorem resetEdgeClearsControl : Obligations.ResetEdgeClearsControl := by
  unfold Obligations.ResetEdgeClearsControl
  refine ⟨fun s e rest hp hr => ⟨by simp [PortEdge.accepts, hr], _, step_of_reset hp hr, ?_⟩,
    fun s t hs h ht => ?_⟩
  · simp [outputs, hashPort, hashValid, faultPort, fcodePort, phasePort, Phase.bits, FaultCode.bits]
  · obtain ⟨e, rest, hp, hr, -⟩ := step_out_of_fault h hs ht
    exact ⟨e, rest, hp, hr⟩

/-- Settles O30, by induction on the words. -/
theorem latencyIsInvisible : Obligations.LatencyIsInvisible := by
  unfold Obligations.LatencyIsInvisible
  exact fun words s => ⟨readyDiscipline_paced false words, runEdges_paced words s⟩

/-- Settles O46: the machine's hash is `xxh64`, which on the short path is a composition of bijections of
the seed. -/
theorem shortHashIsBijectiveInSeed : Obligations.ShortHashIsBijectiveInSeed := by
  unfold Obligations.ShortHashIsBijectiveInSeed
  intro m s hm hp h
  simp only [hashAfter_eq _ hp (show m.length < 2 ^ 64 by omega), Option.some.injEq]
  exact (xxh64_bijective_seed hm).existsUnique h

/-- Settles O47: a stream cut short is INIT and groups, which end in ABSORB, and from there the commands
of a message give its hash. -/
theorem cancelledStreamShowsNothing : Obligations.CancelledStreamShowsNothing := by
  unfold Obligations.CancelledStreamShowsNothing
  intro seed seed' chunks m s hp hm
  rw [cancelledCommands_eq_opened]
  refine ⟨⟨_, runCommands_opened seed _ hp, by simp, by simp [hashPort_eq]⟩, ?_⟩
  have habsorb :
      ((messageGroups chunks.flatten).foldl absorbGroup (initEffect seed s)).ph ≠ .fault := by simp
  obtain ⟨t, hrun, -, hport, -⟩ := hashOfMessage seed' m _ habsorb hm
  rw [runCommands_opened_append seed _ _ hp]
  exact ⟨t, hrun, hport⟩

/-- Settles O49: a word other than the one presented before, or after a change, makes the edge draw its
word, so what the host drives there has no influence; and a word new or held is the word accepted. -/
theorem changedWordIsUnspecified : Obligations.ChangedWordIsUnspecified := by
  unfold Obligations.ChangedWordIsUnspecified
  refine ⟨fun s e rest w hp ha hpres hne => ?_, fun s e f g edges hv hr hrdy hfa hga hf hg => ?_,
    fun s e f edges hr hfa h => ?_⟩
  · have hch : s.presented.hold e = .changed := by
      refine Presented.hold_eq_changed (PortEdge.valid_of_accepts ha) ?_ ?_
      · rcases hpres with h | h <;> simp [h]
      · intro hs
        rcases hpres with h | h
        · exact hne h (Presented.steady.inj (h.symm.trans hs))
        · exact absurd (h.symm.trans hs) (by simp)
    rw [step_of_accepts hp ha, (acceptedWord_of_changed hch).1, taken_of_changed rest hch]
  · have hwait := clockEdge_of_not_accepts s hr (PortEdge.not_accepts_of_not_ready hrdy)
    rw [runEdges_cons _ hwait, runEdges_cons _ hwait]
    apply runEdges_cons_congr
    rw [clockEdge_of_accepts_changed hfa (hold_hold_eq_changed s.presented hv hfa hf),
      clockEdge_of_accepts_changed hga (hold_hold_eq_changed s.presented hv hga hg)]
  · have ha : e.accepts = false := h.elim PortEdge.not_accepts_of_not_valid
      fun hfresh => PortEdge.not_accepts_of_not_ready hfresh.2.1
    have hheld : s.presented.hold e = .nothing ∨ s.presented.hold e = .steady f.cmd :=
      hold_of_not_valid_or_fresh (h.imp_right fun hfresh => ⟨hfresh.1, hfresh.2.2⟩)
    rw [runEdges_cons _ (clockEdge_of_not_accepts s hr ha)]
    refine runEdges_cons_congr edges ((clockEdge_of_accepts_held hfa hheld).trans ?_)
    rw [setPresented_setPresented, setPresented_eq]

end Sys2Proof.Proofs
end
